-- ==== Sys2Proof/Word.lean ====
section
/-! DEFINITION. The widths of the block's values (spec/00_scope.md R6, spec/30_encoding.md R61 and R70). -/

namespace Sys2Proof

/-- A word, register, program counter or ALU value: 32 bits (R6, `XLEN`). -/
abbrev Word := BitVec 32

/-- One byte of a memory cell. -/
abbrev Byte := BitVec 8

/-- A register index, a 5-bit instruction field (R21, R61). -/
abbrev RegIdx := BitVec 5

/-- A primary opcode, bits [31:26] (R61). -/
abbrev Opcode := BitVec 6

/-- A function code, bits [5:0] (R61). -/
abbrev Funct := BitVec 6

/-- Bits [10:6], which no unit reads (R61). -/
abbrev Shamt := BitVec 5

/-- A 16-bit immediate or offset, bits [15:0] (R61). -/
abbrev Imm := BitVec 16

/-- A 26-bit jump target, bits [25:0] (R61). -/
abbrev Target := BitVec 26

/-- An effective opcode: 7 bits, the 64 primary opcodes and two further values (R70). -/
abbrev Eop := BitVec 7

/-- The general registers: 32 words (R21). -/
abbrev Regs := Vector Word 32

end Sys2Proof
end

