-- ==== Sys2Proof/Config.lean ====
section
/-! DEFINITION. The OPEN parameters of the block (spec/00_scope.md R6) and the values the model names for the
start of a run where the spec leaves them to the caller (spec/10_state.md R33). -/

namespace Sys2Proof

/-- The OPEN parameters of R6 that stay fixed during a run.
`PC0`, `R_INIT` and `M_INIT` are arguments of `State.launch` instead.
DESIGN CHOICE (log 3): they travel in State, so a statement over every state holds for every value of them. -/
structure Params where
  /-- `MEM_WORDS`, the size of memory in 32-bit words (R40). -/
  memWords : Nat
  /-- `ALIAS_REQUIRES_OP0`: the slt/sltu rewrite fires only for `op = 0` (R71). -/
  aliasRequiresOp0 : Bool
  /-- `ALIAS_COLLIDE_SLT`: a primary opcode that also decodes with the slt vector (R72). -/
  aliasCollideSlt : Option Opcode
  /-- `ALIAS_COLLIDE_SLTU`: a primary opcode that also decodes with the sltu vector (R72). -/
  aliasCollideSltu : Option Opcode
  /-- `J_ALUSRC`: the ALUSrc cell of the `j` row (R81). -/
  jAluSrc : Bool
  /-- `J_ALUOP`: the ALUOp cell of the `j` row (R81). -/
  jAluOp : BitVec 3
  /-- `HALT_CHECK_ALL`: the halt-index test applies to every instruction (R126). -/
  haltCheckAll : Bool
  deriving DecidableEq, Repr

/-- The defaults of R6. -/
def Params.default : Params where
  memWords := 16384
  aliasRequiresOp0 := true
  aliasCollideSlt := none
  aliasCollideSltu := none
  jAluSrc := false
  jAluOp := 0#3
  haltCheckAll := true

/-- `HALT_INDEX`: the word index one past the last memory word (R47). -/
abbrev Params.haltIndex (p : Params) : Nat := p.memWords

/-- The default of `PC0` (R33, R221): log 5. -/
def Config.pc0 : Word := 0#32

/-- `R_INIT` of `State.reset`. DESIGN CHOICE (log 4): the spec gives no register a reset value. -/
def Config.rInit : Regs := Vector.replicate 32 0#32

/-- What a byte of memory that no cell lists reads as. DESIGN CHOICE (log 6). -/
def Config.unlistedByte : Byte := 0#8

end Sys2Proof
end

