-- ==== Sys2Proof/Syntax.lean ====
section
/-! DEFINITION. The instructions: one constructor per row of spec/opcode_table.json, the rows of the control ROM
(spec/30_encoding.md R81), the control vector (R80) and the field view of a word (R61, R62). -/

namespace Sys2Proof

/-- The rows of spec/opcode_table.json, operands in the order of their bits from the most significant down.
Fields that no unit reads (`shamt`, the `funct` of an add) are kept, so that encoding loses no bit of a word. -/
inductive Instr where
  /-- The all-zero word, the end-of-program sentinel (R66, R121). -/
  | halt
  /-- Signed set-less-than (R153). -/
  | slt (rs rt rd : RegIdx) (shamt : Shamt)
  /-- Unsigned set-less-than (R154). -/
  | sltu (rs rt rd : RegIdx) (shamt : Shamt)
  /-- Register add, and every other R-format word (R83, R152). -/
  | add (rs rt rd : RegIdx) (shamt : Shamt) (funct : Funct)
  /-- Absolute jump (R181). -/
  | j (target : Target)
  /-- Branch if equal (R180). -/
  | beq (rs rt : RegIdx) (imm : Imm)
  /-- Add immediate (R151). -/
  | addi (rs rt : RegIdx) (imm : Imm)
  /-- Load upper immediate (R155). -/
  | lui (rs rt : RegIdx) (imm : Imm)
  /-- Load word (R170). -/
  | lw (rs rt : RegIdx) (imm : Imm)
  /-- Store word (R171). -/
  | sw (rs rt : RegIdx) (imm : Imm)
  /-- A word whose effective opcode has no row in the control ROM (R82). -/
  | unsupported (word : Word)
  deriving DecidableEq, Repr

/-- The nine rows of the control ROM (R81), in the document's order. -/
inductive RomRow where
  | addi
  | add
  | slt
  | sw
  | sltu
  | lw
  | j
  | beq
  | lui
  deriving DecidableEq, Repr

/-- The control vector: eight flags and the 3-bit ALUOp (R80). -/
structure Ctl where
  regDst : Bool
  jump : Bool
  branch : Bool
  memRead : Bool
  memtoReg : Bool
  memWrite : Bool
  aluSrc : Bool
  regWrite : Bool
  aluOp : BitVec 3
  deriving DecidableEq, Repr

/-- The fields of a word that units after the partitioner read (R61, R62).
They overlap, and all of them are present whatever the format. -/
structure Fields where
  rs : RegIdx
  rt : RegIdx
  rd : RegIdx
  imm : Imm
  target : Target
  deriving DecidableEq, Repr

end Sys2Proof
end

