-- ==== Sys2Proof/Machine/Control.lean ====
section
/-! DEFINITION. The control ROM's contents (spec/30_encoding.md R80, R81, R84). -/

namespace Sys2Proof.Machine

/-- The control vector of each row of R81, and a function of the row alone (R84).
The cells marked d there (RegDst of the R-format rows, don't-cares filled with 0) are the spec's decision (log 11),
and the two cells of `j` marked p are parameters. -/
def romCtl (p : Params) : RomRow → Ctl
  | .addi => ⟨false, false, false, false, false, false, true, true, 0#3⟩
  | .add => ⟨true, false, false, false, false, false, false, true, 0#3⟩
  | .slt => ⟨true, false, false, false, false, false, false, true, 2#3⟩
  | .sw => ⟨false, false, false, false, false, true, true, false, 0#3⟩
  | .sltu => ⟨true, false, false, false, false, false, false, true, 3#3⟩
  | .lw => ⟨false, false, false, true, true, false, true, true, 0#3⟩
  | .j => ⟨false, true, false, false, false, false, p.jAluSrc, false, p.jAluOp⟩
  | .beq => ⟨false, false, true, false, false, false, false, false, 1#3⟩
  | .lui => ⟨false, false, false, false, false, false, true, true, 6#3⟩

end Sys2Proof.Machine
end

