-- ==== Sys2Proof/Machine/Flags.lean ====
section
/-! DEFINITION. The ALU and its zero flag (spec/40_datapath.md R100 to R108). The zero flag is the only flag, and it
lives for one cycle (spec/10_state.md R27, R28). -/

namespace Sys2Proof.Machine

/-- What the ALU puts out (R100). -/
structure AluOut where
  result : Word
  zero : Bool
  deriving DecidableEq, Repr

/-- A truth value as the word 1 or 0 (R103, R104). -/
def boolWord (b : Bool) : Word := if b then 1#32 else 0#32

/-- The result of each of the eight operations (R101 to R108). -/
def aluResult (a b : Word) (sel : BitVec 3) : Word :=
  match sel with
  | 0#3 => a + b
  | 1#3 => a - b
  | 2#3 => boolWord (a.slt b)
  | 3#3 => boolWord (a.ult b)
  | 4#3 => a &&& b
  | 5#3 => a ||| b
  | 6#3 => b <<< 16
  | 7#3 => ~~~a

/-- The zero flag of a result (R27, R100). -/
def zeroFlag (result : Word) : Bool := result == 0#32

/-- The ALU: result and zero flag (R100). -/
def alu (a b : Word) (sel : BitVec 3) : AluOut where
  result := aluResult a b sel
  zero := zeroFlag (aluResult a b sel)

end Sys2Proof.Machine
end

