-- ==== Sys2Proof/WellFormed.lean ====
section
/-! DEFINITION. Well-formed instructions: those that some word encodes under given parameters
(spec/30_encoding.md R66, R70 to R72, R82, R83). Each check is a Bool of its own. -/

namespace Sys2Proof

/-- The function codes that the partitioner rewrites (R65, R70). -/
def isCompareFunct (funct : Funct) : Bool :=
  funct == 0x2A#6 || funct == 0x2B#6

/-- A word of a nonzero opcode whose low six bits are `low` escapes the rewrite of R71. -/
def escapesRewrite (p : Params) (low : Funct) : Bool :=
  p.aliasRequiresOp0 || !isCompareFunct low

/-- A nonzero opcode that no collision parameter turns into a compare (R72). -/
def escapesCollision (p : Params) (op : Opcode) : Bool :=
  p.aliasCollideSlt != some op && p.aliasCollideSltu != some op

/-- An I- or J-format instruction of opcode `op` and low six bits `low` decodes as itself (R71, R72). -/
def keepsOpcode (p : Params) (op : Opcode) (low : Funct) : Bool :=
  escapesRewrite p low && escapesCollision p op

/-- The fields of an add are not those of the all-zero word (R66). -/
def notSentinel (rs rt rd : RegIdx) (shamt : Shamt) (funct : Funct) : Bool :=
  !(rs == 0#5 && rt == 0#5 && rd == 0#5 && shamt == 0#5 && funct == 0#6)

/-- The primary opcodes with a row of their own in the control ROM (R85). -/
def supportedOpcodes : List Opcode :=
  [0x00#6, 0x02#6, 0x04#6, 0x08#6, 0x0F#6, 0x23#6, 0x2B#6]

/-- The word's opcode has no row, and no parameter gives it one (R82). -/
def lacksRomRow (p : Params) (word : Word) : Bool :=
  !supportedOpcodes.contains (word.extractLsb' 26 6)
    && keepsOpcode p (word.extractLsb' 26 6) (word.extractLsb' 0 6)

/-- The instruction is what some word decodes to under `p`. -/
def Instr.wellFormed (p : Params) : Instr → Bool
  | .halt => true
  | .slt _ _ _ _ => true
  | .sltu _ _ _ _ => true
  | .add rs rt rd shamt funct => notSentinel rs rt rd shamt funct && !isCompareFunct funct
  | .j target => keepsOpcode p 0x02#6 (target.extractLsb' 0 6)
  | .beq _ _ imm => keepsOpcode p 0x04#6 (imm.extractLsb' 0 6)
  | .addi _ _ imm => keepsOpcode p 0x08#6 (imm.extractLsb' 0 6)
  | .lui _ _ imm => keepsOpcode p 0x0F#6 (imm.extractLsb' 0 6)
  | .lw _ _ imm => keepsOpcode p 0x23#6 (imm.extractLsb' 0 6)
  | .sw _ _ imm => keepsOpcode p 0x2B#6 (imm.extractLsb' 0 6)
  | .unsupported word => lacksRomRow p word

end Sys2Proof
end

