-- ==== Sys2Proof/Decode.lean ====
section
/-! DEFINITION. The partitioner (spec/30_encoding.md R61 to R72), the choice of a control ROM row (R81, R82), the
decoder, total on words and on byte lists, and the encoder. -/

namespace Sys2Proof

/-! ### Field extraction (R61) -/

def opOf (w : Word) : Opcode := w.extractLsb' 26 6
def rsOf (w : Word) : RegIdx := w.extractLsb' 21 5
def rtOf (w : Word) : RegIdx := w.extractLsb' 16 5
def rdOf (w : Word) : RegIdx := w.extractLsb' 11 5
def shamtOf (w : Word) : Shamt := w.extractLsb' 6 5
def functOf (w : Word) : Funct := w.extractLsb' 0 6
def immOf (w : Word) : Imm := w.extractLsb' 0 16
def targetOf (w : Word) : Target := w.extractLsb' 0 26

/-- Every field is extracted from every word, whatever the format (R62). -/
def fieldsOf (w : Word) : Fields where
  rs := rsOf w
  rt := rtOf w
  rd := rdOf w
  imm := immOf w
  target := targetOf w

/-! ### Alias resolution and the ROM row -/

/-- The effective opcode `EOP_SLT` (R70). -/
def eopSlt : Eop := 64#7

/-- The effective opcode `EOP_SLTU` (R70). -/
def eopSltu : Eop := 65#7

/-- The partitioner's second step (R70, R71). -/
def resolve (p : Params) (op : Opcode) (funct : Funct) : Eop :=
  if (op = 0x00#6 ∨ p.aliasRequiresOp0 = false) ∧ funct = 0x2A#6 then eopSlt
  else if (op = 0x00#6 ∨ p.aliasRequiresOp0 = false) ∧ funct = 0x2B#6 then eopSltu
  else op.setWidth 7

/-- The row of the control ROM that an effective opcode selects (R81), none where it has no row (R82).
The collision parameters of R72 come after opcode 0 and before the six I- and J-format opcodes (R86).
DEDUCED (log 12): a collision with opcode 0 has no effect, and `ALIAS_COLLIDE_SLT` goes before `ALIAS_COLLIDE_SLTU`. -/
def romRow (p : Params) (eop : Eop) : Option RomRow :=
  if eop = eopSlt then some .slt
  else if eop = eopSltu then some .sltu
  else if eop = 0x00#7 then some .add
  else if p.aliasCollideSlt.map (BitVec.setWidth 7) = some eop then some .slt
  else if p.aliasCollideSltu.map (BitVec.setWidth 7) = some eop then some .sltu
  else if eop = 0x02#7 then some .j
  else if eop = 0x04#7 then some .beq
  else if eop = 0x08#7 then some .addi
  else if eop = 0x0F#7 then some .lui
  else if eop = 0x23#7 then some .lw
  else if eop = 0x2B#7 then some .sw
  else none

/-! ### The decoder -/

/-- The instruction of a ROM row with the operands of `w`. -/
def instrOfRow (w : Word) : RomRow → Instr
  | .addi => .addi (rsOf w) (rtOf w) (immOf w)
  | .add => .add (rsOf w) (rtOf w) (rdOf w) (shamtOf w) (functOf w)
  | .slt => .slt (rsOf w) (rtOf w) (rdOf w) (shamtOf w)
  | .sw => .sw (rsOf w) (rtOf w) (immOf w)
  | .sltu => .sltu (rsOf w) (rtOf w) (rdOf w) (shamtOf w)
  | .lw => .lw (rsOf w) (rtOf w) (immOf w)
  | .j => .j (targetOf w)
  | .beq => .beq (rsOf w) (rtOf w) (immOf w)
  | .lui => .lui (rsOf w) (rtOf w) (immOf w)

/-- The instruction of any word, in the order of R86: the sentinel first, then the ROM row, else unsupported. -/
def decodeWord (p : Params) (w : Word) : Instr :=
  if w = 0#32 then .halt
  else
    match romRow p (resolve p (opOf w) (functOf w)) with
    | some row => instrOfRow w row
    | none => .unsupported w

/-! ### Words and bytes. DESIGN CHOICE (log 7): little-endian; R42 says no rule can observe the order. -/

/-- The word whose bytes, from the lowest address up, are `b0 b1 b2 b3`. -/
def wordOfBytes (b0 b1 b2 b3 : Byte) : Word := b3 ++ b2 ++ b1 ++ b0

/-- Byte `i` of a word, `i` counted from the lowest address. -/
def byteOfWord (w : Word) (i : Nat) : Byte := w.extractLsb' (8 * i) 8

/-- The four bytes of a word from the lowest address up. -/
def bytesOfWord (w : Word) : List Byte :=
  [byteOfWord w 0, byteOfWord w 1, byteOfWord w 2, byteOfWord w 3]

/-- Why a byte list is not decoded. -/
inductive DecodeReject where
  /-- Fewer than the four bytes of an instruction word (R60). Raised by `decodeBytes` only; safe. -/
  | truncated
  deriving DecidableEq, Repr

/-- The instruction at the head of a byte list, and the bytes after it (R60: one length only). -/
def decodeBytes (p : Params) : List Byte → Except DecodeReject (Instr × List Byte)
  | b0 :: b1 :: b2 :: b3 :: rest => .ok (decodeWord p (wordOfBytes b0 b1 b2 b3), rest)
  | [] => .error .truncated
  | [_] => .error .truncated
  | [_, _] => .error .truncated
  | [_, _, _] => .error .truncated

/-- The host's view of the decoder under the default parameters: an instruction whose bits are `w`, the bits from
`nbits` up zero, laid out as memory stores it. -/
def decodeTableWord (nbits w : Nat) : Option Instr :=
  match decodeBytes Params.default (bytesOfWord (BitVec.ofNat 32 (w % 2 ^ nbits))) with
  | .ok (i, _) => some i
  | .error _ => none

/-! ### The encoder (R61, R62, R65) -/

def encodeR (rs rt rd : RegIdx) (shamt : Shamt) (funct : Funct) : Word :=
  0x00#6 ++ rs ++ rt ++ rd ++ shamt ++ funct

def encodeI (op : Opcode) (rs rt : RegIdx) (imm : Imm) : Word :=
  op ++ rs ++ rt ++ imm

def encodeJ (op : Opcode) (target : Target) : Word :=
  op ++ target

/-- The word of an instruction. A compare is written with opcode 0 and its function code of R65 (log 16). -/
def encode : Instr → Word
  | .halt => 0#32
  | .slt rs rt rd shamt => encodeR rs rt rd shamt 0x2A#6
  | .sltu rs rt rd shamt => encodeR rs rt rd shamt 0x2B#6
  | .add rs rt rd shamt funct => encodeR rs rt rd shamt funct
  | .j target => encodeJ 0x02#6 target
  | .beq rs rt imm => encodeI 0x04#6 rs rt imm
  | .addi rs rt imm => encodeI 0x08#6 rs rt imm
  | .lui rs rt imm => encodeI 0x0F#6 rs rt imm
  | .lw rs rt imm => encodeI 0x23#6 rs rt imm
  | .sw rs rt imm => encodeI 0x2B#6 rs rt imm
  | .unsupported word => word

/-- The bytes of an instruction as memory holds them. -/
def encodeBytes (i : Instr) : List Byte := bytesOfWord (encode i)

end Sys2Proof
end

