-- ==== Sys2Proof/Machine/Operands.lean ====
section
/-! DEFINITION. Operands: the register file's ports (spec/40_datapath.md R115, R116), the sign extender (R110), the
field view of each instruction format (spec/30_encoding.md R62 to R64) and the choice of ALU operand B (R123). -/

namespace Sys2Proof.Machine

/-! ### Register file -/

/-- A read port: the register's current contents (R115). No index is special (R22). -/
def regRead (x : Regs) (r : RegIdx) : Word := x[r.toNat]'(r.isLt)

/-- Register `r` set to `v`; every index is writable, 0 included (R22, R116). -/
def regSet (x : Regs) (r : RegIdx) (v : Word) : Regs := x.set r.toNat v (r.isLt)

/-- The write port: it stores only when enabled (R116). -/
def regWrite (x : Regs) (r : RegIdx) (v : Word) (enable : Bool) : Regs :=
  if enable then regSet x r v else x

/-! ### Sign extender -/

/-- The one extender: it always sign-extends (R63, R110). -/
def sext32 (imm : Imm) : Word := imm.signExtend 32

/-! ### The fields the units read, from the operands of each format -/

/-- R-format: `imm` overlaps `rd`, `shamt` and `funct`, and `target` all five fields (R62). -/
def rFormat (rs rt rd : RegIdx) (shamt : Shamt) (funct : Funct) : Fields :=
  fieldsOf (encodeR rs rt rd shamt funct)

/-- I-format: `rd` is the top of `imm` (R62). The opcode is read by no unit after decode. -/
def iFormat (rs rt : RegIdx) (imm : Imm) : Fields :=
  fieldsOf (encodeI 0x00#6 rs rt imm)

/-- J-format: `rs`, `rt`, `rd` and `imm` all lie inside `target` (R62, R185). -/
def jFormat (target : Target) : Fields :=
  fieldsOf (encodeJ 0x00#6 target)

/-! ### ALU operand B -/

/-- The extended immediate when ALUSrc is set, else the second register value (R64, R123). -/
def operandB (ctl : Ctl) (rd2 ext : Word) : Word := if ctl.aluSrc then ext else rd2

end Sys2Proof.Machine
end

