-- ==== Sys2Proof/Machine/State.lean ====
section
/-! DEFINITION. The state of the block (spec/10_state.md R20), its stops (spec/60_exceptions.md R200, R205) and its
state at the start of a run. -/

namespace Sys2Proof.Machine

/-- The four causes of a halt, in the order of their codes 1 to 4 (R200). -/
inductive HaltCause where
  /-- Code 1: the fetched word is all zero (R121). -/
  | fetchZero
  /-- Code 2: the effective opcode has no row in the control ROM (R82). -/
  | badOpcode
  /-- Code 3: ALUOp outside 0..7 (R124), which a 3-bit selector never is. -/
  | badALUOp
  /-- Code 4: the ALU result's word index is `HALT_INDEX` and the test applies (R125, R126). -/
  | haltAddress
  deriving DecidableEq, Repr

/-- The model faults of R205: the spec gives no run beyond them, and they commit nothing (R142, R206). -/
inductive Fault where
  /-- Raised by `fetch` when the word index of `pc` is `MEM_WORDS` or more (R46).
  Safe: the source indexes past its array there (log 13). -/
  | fetchOutOfRange (pc : Word)
  /-- Raised by `memRead` and `memWrite`, so by `lw` and `sw`, when the word index of the address is above the halt
  index (R49). Safe: the source indexes past its array there (log 13). -/
  | memOutOfRange (addr : Word)
  deriving DecidableEq, Repr

/-- Reasons for which no meaning is given. -/
inductive Refusal where
  /-- Raised by an arm of `exec` whose instruction has no meaning; no arm does. Safe. -/
  | notModelled (mnemonic : String)
  /-- Raised by `State.launch` alone, never by a step: `PC0` is not a multiple of 4 (R221). Safe. -/
  | launchMisalignedPc
  deriving DecidableEq, Repr

/-- What ends a cycle early: a halt (R200) or a model fault (R205). -/
inductive Stop where
  | halt (cause : HaltCause)
  | fault (reason : Fault)
  deriving DecidableEq, Repr

/-- Memory: (byte address, byte) cells. Word `k` of R40 is the four bytes from address `4 * k` (R41). -/
abbrev Memory := List Host.Cell

/-- The canonical form: addresses strictly rising, and no cell equal to what an unlisted address reads as.
Equal memories are then equal lists. -/
abbrev Memory.wf (m : Memory) : Prop :=
  m.Pairwise (fun a b => a.1 < b.1) ∧ ∀ c ∈ m, c.2 ≠ Config.unlistedByte

/-- The state: `pc`, `x` and `M` are the spec's three elements (R20); `halt` and `params` are the model's own. -/
structure State where
  /-- The OPEN parameters (R6). No step changes them (log 3). -/
  params : Params
  /-- The program counter, a byte address (R24). -/
  pc : Word
  /-- The general registers `x[0]` to `x[31]` (R21). -/
  x : Regs
  /-- The memory array `M` (R40). -/
  mem : Memory
  /-- ORCH's output in the cycle just clocked: none for `halt = 0`, a cause for `halt = 1` (R143, R200).
  No step reads it: the block holds no halted latch (R144). DESIGN CHOICE (log 2). -/
  halt : Option HaltCause
  deriving DecidableEq, Repr

/-- The start of a run with the default parameters and `PC0`, and with `R_INIT` and `M_INIT` as the log names them:
the block has no reset of its own (R33, R220; log 4, 5 and 6). -/
def State.reset : State where
  params := Params.default
  pc := Config.pc0
  x := Config.rInit
  mem := []
  halt := none

end Sys2Proof.Machine
end

