-- ==== Sys2Proof/Machine/Ops.lean ====
section
/-! DEFINITION. The operations every instruction shares: memory (spec/20_memory.md R40 to R49), the stages of a cycle
(spec/40_datapath.md R120 to R131), taking a halt (R142 to R144) and the orchestrator's run of one ROM row (R140). -/

namespace Sys2Proof.Machine

/-! ### Memory cells -/

/-- One byte of memory; an address no cell lists reads as `Config.unlistedByte`. -/
def Memory.readByte : Memory → Nat → Byte
  | [], _ => Config.unlistedByte
  | c :: m, a => if c.1 = a then c.2 else Memory.readByte m a

/-- The cells other than those of address `a`. -/
def Memory.erase (m : Memory) (a : Nat) : Memory := m.filter (fun c => c.1 != a)

/-- A cell put before the first cell of a higher address. -/
def Memory.insert (a : Nat) (v : Byte) : Memory → Memory
  | [] => [(a, v)]
  | c :: m => if a < c.1 then (a, v) :: c :: m else c :: Memory.insert a v m

/-- One byte written. The canonical form stays: the value an unlisted address reads as removes the cell. -/
def Memory.writeByte (m : Memory) (a : Nat) (v : Byte) : Memory :=
  if v = Config.unlistedByte then Memory.erase m a
  else Memory.insert a v (Memory.erase m a)

/-! ### Memory words -/

/-- The word index of a byte address, a logical shift that drops the low two bits (R41). -/
def wordIndex (a : Word) : Nat := (a >>> 2).toNat

/-- Memory word `k` (R40). -/
def Memory.readWord (m : Memory) (k : Nat) : Word :=
  wordOfBytes (m.readByte (4 * k)) (m.readByte (4 * k + 1)) (m.readByte (4 * k + 2)) (m.readByte (4 * k + 3))

/-- Memory word `k` set to `v`, all 32 bits (R44). -/
def Memory.writeWord (m : Memory) (k : Nat) (v : Word) : Memory :=
  (((m.writeByte (4 * k) (byteOfWord v 0)).writeByte (4 * k + 1) (byteOfWord v 1)).writeByte
    (4 * k + 2) (byteOfWord v 2)).writeByte (4 * k + 3) (byteOfWord v 3)

/-- `MemRead(addr, 4)` (R43). -/
def memRead (p : Params) (m : Memory) (addr : Word) : Except Fault Word :=
  if p.memWords ≤ wordIndex addr then .error (.memOutOfRange addr)
  else .ok (m.readWord (wordIndex addr))

/-- `MemWrite(addr, 4, v)` (R44). -/
def memWrite (p : Params) (m : Memory) (addr : Word) (v : Word) : Except Fault Memory :=
  if p.memWords ≤ wordIndex addr then .error (.memOutOfRange addr)
  else .ok (m.writeWord (wordIndex addr) v)

/-! ### Instruction fetch (IFU) -/

/-- The fetched word, or the fetch fault (R46, R120). `pc[1:0]` is not tested (R120, log 17).
The halt on the all-zero word (R121) is the meaning of `Instr.halt`. -/
def fetch (s : State) : Except Fault Word :=
  if s.params.memWords ≤ wordIndex s.pc then .error (.fetchOutOfRange s.pc)
  else .ok (s.mem.readWord (wordIndex s.pc))

/-- The four bytes that the fetch reads, from the lowest address up. -/
def fetchBytes (s : State) : List Byte :=
  [s.mem.readByte (4 * wordIndex s.pc), s.mem.readByte (4 * wordIndex s.pc + 1),
    s.mem.readByte (4 * wordIndex s.pc + 2), s.mem.readByte (4 * wordIndex s.pc + 3)]

/-! ### ALU operand dispatch (ALUD) -/

/-- Dispatch (R123), with the selector test that a 3-bit selector never fails (R124). -/
def aluDispatch (ctl : Ctl) (rd1 rd2 ext : Word) : Except Stop AluOut :=
  if 7 < ctl.aluOp.toNat then .error (.halt .badALUOp)
  else .ok (alu rd1 (operandB ctl rd2 ext) ctl.aluOp)

/-! ### Memory access arbiter (MAU) -/

/-- Whether the halt-index test applies (R126). -/
def haltTestApplies (p : Params) (ctl : Ctl) : Bool := p.haltCheckAll || ctl.memRead || ctl.memWrite

/-- What the memory stage hands on: the data read and the memory as it will be after the cycle. -/
structure MemOut where
  memdata : Word
  mem : Memory
  deriving DecidableEq, Repr

/-- The memory stage (R125): the halt-index test, then the read, then the write.
`memdata` is 0 without a read, and a read sees the memory from before the write (R127). -/
def memoryStage (p : Params) (ctl : Ctl) (m : Memory) (addr rd2 : Word) : Except Stop MemOut :=
  if haltTestApplies p ctl = true ∧ wordIndex addr = p.haltIndex then .error (.halt .haltAddress)
  else
    match (if ctl.memRead then memRead p m addr else .ok 0#32) with
    | .error r => .error (.fault r)
    | .ok memdata =>
      match (if ctl.memWrite then memWrite p m addr rd2 else .ok m) with
      | .error r => .error (.fault r)
      | .ok m' => .ok ⟨memdata, m'⟩

/-! ### Register writeback (WB) -/

/-- The register that writeback names: `rt` for a load, else `rd` or `rt` by RegDst (R64, R128). -/
def writeIndex (ctl : Ctl) (f : Fields) : RegIdx :=
  if ctl.memtoReg then f.rt else if ctl.regDst then f.rd else f.rt

/-- The value that writeback writes (R128). -/
def writeValue (ctl : Ctl) (memdata aluRes : Word) : Word :=
  if ctl.memtoReg then memdata else aluRes

/-- The one register write of the cycle, or none (R128). -/
def writeback (ctl : Ctl) (f : Fields) (x : Regs) (memdata aluRes : Word) : Regs :=
  regWrite x (writeIndex ctl f) (writeValue ctl memdata aluRes) ctl.regWrite

/-! ### Program counter update (PCU) -/

/-- The absolute jump target (R132). -/
def jumpTarget (target : Target) : Word := target.setWidth 32 <<< 2

/-- The next PC, from the current one: a taken branch first, then a jump, else the next word (R130, R131). -/
def pcUpdate (pc : Word) (target : Target) (ext : Word) (ctl : Ctl) (zero : Bool) : Word :=
  if ctl.branch && zero then pc + (ext <<< 2) + 4#32
  else if ctl.jump then jumpTarget target
  else pc + 4#32

/-! ### The end of a cycle (ORCH) -/

/-- The clock edge of a cycle that completes: the state elements load together, and `halt` is 0 (R141, R145). -/
def State.commit (s : State) (pc : Word) (x : Regs) (m : Memory) : State :=
  { s with pc := pc, x := x, mem := m, halt := none }

/-- The clock edge of a cycle that halts: every write enable is 0 and `halt` is 1 (R142, R143, R145).
There is no handler, vector, saved register or return (R201, R204). DEDUCED (log 1). -/
def State.markHalt (s : State) (cause : HaltCause) : State :=
  { s with halt := some cause }

/-- Taking a halt: the one shared operation of every halting cycle (R142 to R144). -/
def takeHalt (cause : HaltCause) (s : State) : Host.Outcome State Fault Refusal :=
  .next (s.markHalt cause)

/-- The end of a cycle by a stop: a halt is taken, a model fault ends the model's run (R200, R206). -/
def takeStop (stop : Stop) (s : State) : Host.Outcome State Fault Refusal :=
  match stop with
  | .halt cause => takeHalt cause s
  | .fault reason => .fault reason

/-! ### The orchestrator after decode -/

/-- The stages from Register-Read to PC-Update under one control vector, in the order of R140.
Every read is of the state before the cycle, and the writes take effect together (R141). -/
def runStages (ctl : Ctl) (f : Fields) (s : State) : Except Stop State :=
  let rd1 := regRead s.x f.rs
  let rd2 := regRead s.x f.rt
  let ext := sext32 f.imm
  match aluDispatch ctl rd1 rd2 ext with
  | .error stop => .error stop
  | .ok out =>
    match memoryStage s.params ctl s.mem out.result rd2 with
    | .error stop => .error stop
    | .ok mo =>
      .ok (s.commit (pcUpdate s.pc f.target ext ctl out.zero) (writeback ctl f s.x mo.memdata out.result) mo.mem)

/-- One cycle of a decoded instruction: its ROM row's vector on its fields (R81, R140). -/
def runRow (row : RomRow) (f : Fields) (s : State) : Host.Outcome State Fault Refusal :=
  match runStages (romCtl s.params row) f s with
  | .error stop => takeStop stop s
  | .ok s' => .next s'

end Sys2Proof.Machine
end

