-- ==== Sys2Proof/Machine/AluInstrs.lean ====
section
/-! DEFINITION. The ALU instructions (spec/41_alu_instructions.md R150 to R155): each is the orchestrator on its row of
the control ROM. -/

namespace Sys2Proof.Machine

/-- R151: `x[rt] <- x[rs] + sext_32(imm)`. -/
def execAddi (rs rt : RegIdx) (imm : Imm) (s : State) : Host.Outcome State Fault Refusal :=
  runRow .addi (iFormat rs rt imm) s

/-- R152: `x[rd] <- x[rs] + x[rt]`, whatever `shamt` and `funct` hold (R83). -/
def execAdd (rs rt rd : RegIdx) (shamt : Shamt) (funct : Funct) (s : State) : Host.Outcome State Fault Refusal :=
  runRow .add (rFormat rs rt rd shamt funct) s

/-- R153: `x[rd] <- 1` if `x[rs] < x[rt]` as signed numbers, else 0. -/
def execSlt (rs rt rd : RegIdx) (shamt : Shamt) (s : State) : Host.Outcome State Fault Refusal :=
  runRow .slt (rFormat rs rt rd shamt 0x2A#6) s

/-- R154: `x[rd] <- 1` if `x[rs] < x[rt]` as unsigned numbers, else 0. -/
def execSltu (rs rt rd : RegIdx) (shamt : Shamt) (s : State) : Host.Outcome State Fault Refusal :=
  runRow .sltu (rFormat rs rt rd shamt 0x2B#6) s

/-- R155: `x[rt] <- imm ++ 0x0000`; `x[rs]` is read and not used. -/
def execLui (rs rt : RegIdx) (imm : Imm) (s : State) : Host.Outcome State Fault Refusal :=
  runRow .lui (iFormat rs rt imm) s

end Sys2Proof.Machine
end

