-- ==== Sys2Proof/Machine/ControlTransfer.lean ====
section
/-! DEFINITION. Control transfer (spec/43_control_transfer.md R180 to R185). -/

namespace Sys2Proof.Machine

/-- R180: `pc <- pc + (sext_32(imm) << 2) + 4` if `x[rs] = x[rt]`, else `pc + 4`. -/
def execBeq (rs rt : RegIdx) (imm : Imm) (s : State) : Host.Outcome State Fault Refusal :=
  runRow .beq (iFormat rs rt imm) s

/-- R181: `pc <- target << 2`. The ALU runs on the fields inside `target` (R185). -/
def execJ (target : Target) (s : State) : Host.Outcome State Fault Refusal :=
  runRow .j (jFormat target) s

end Sys2Proof.Machine
end

