-- ==== Sys2Proof/Machine/Halting.lean ====
section
/-! DEFINITION. The two rows of the opcode table that halt before any register is read: the end-of-program sentinel
(spec/40_datapath.md R121) and the unsupported opcodes (spec/30_encoding.md R82). -/

namespace Sys2Proof.Machine

/-- R121: the all-zero word halts with cause `FetchZero`. -/
def execHalt (s : State) : Host.Outcome State Fault Refusal := takeHalt .fetchZero s

/-- R82: an opcode with no row in the control ROM halts with cause `BadOpcode`; nothing of the word is used. -/
def execUnsupported (_word : Word) (s : State) : Host.Outcome State Fault Refusal := takeHalt .badOpcode s

end Sys2Proof.Machine
end

