-- ==== Sys2Proof/Machine/LoadStore.lean ====
section
/-! DEFINITION. Loads and stores (spec/42_load_store.md R170 to R172). -/

namespace Sys2Proof.Machine

/-- R170: `x[rt] <- M[(x[rs] + sext_32(imm)) >> 2]`. -/
def execLw (rs rt : RegIdx) (imm : Imm) (s : State) : Host.Outcome State Fault Refusal :=
  runRow .lw (iFormat rs rt imm) s

/-- R171: `M[(x[rs] + sext_32(imm)) >> 2] <- x[rt]`. -/
def execSw (rs rt : RegIdx) (imm : Imm) (s : State) : Host.Outcome State Fault Refusal :=
  runRow .sw (iFormat rs rt imm) s

end Sys2Proof.Machine
end

