-- ==== Sys2Proof/Machine/Dispatch.lean ====
section
/-! DEFINITION. One arm per row of spec/opcode_table.json. -/

namespace Sys2Proof.Machine

def exec (i : Instr) (s : State) : Host.Outcome State Fault Refusal :=
  match i with
  | .halt => Sys2Proof.Machine.execHalt s
  | .slt rs rt rd shamt => Sys2Proof.Machine.execSlt rs rt rd shamt s
  | .sltu rs rt rd shamt => Sys2Proof.Machine.execSltu rs rt rd shamt s
  | .add rs rt rd shamt funct => Sys2Proof.Machine.execAdd rs rt rd shamt funct s
  | .j target => Sys2Proof.Machine.execJ target s
  | .beq rs rt imm => Sys2Proof.Machine.execBeq rs rt imm s
  | .addi rs rt imm => Sys2Proof.Machine.execAddi rs rt imm s
  | .lui rs rt imm => Sys2Proof.Machine.execLui rs rt imm s
  | .lw rs rt imm => Sys2Proof.Machine.execLw rs rt imm s
  | .sw rs rt imm => Sys2Proof.Machine.execSw rs rt imm s
  | .unsupported word => Sys2Proof.Machine.execUnsupported word s

end Sys2Proof.Machine
end

