-- ==== Sys2Proof/Machine/Step.lean ====
section
/-! DEFINITION. One clock cycle (spec/40_datapath.md R140, R145), and the word placed where the next fetch reads. -/

namespace Sys2Proof.Machine

/-- One cycle: fetch, decode, run. The fetch fault comes first, then the decoded instruction (R140, R202). -/
def step (s : State) : Host.Outcome State Fault Refusal :=
  match fetch s with
  | .error r => .fault r
  | .ok w => exec (decodeWord s.params w) s

/-- `s` with the word of an instruction of `nbits` bits stored where the next fetch reads (log 8).
Where that index is outside memory the state stays, since no store can make the fetch succeed there (R46). -/
def State.withFetchWord (s : State) (nbits w : Nat) : State :=
  if s.params.memWords ≤ wordIndex s.pc then s
  else { s with mem := s.mem.writeWord (wordIndex s.pc) (BitVec.ofNat 32 (w % 2 ^ nbits)) }

end Sys2Proof.Machine
end

