-- ==== Sys2Proof/Machine/Launch.lean ====
section
/-! DEFINITION. The start of a run: what the caller loads before the first cycle (spec/70_reset_and_hazards.md R220 to
R222). It is no step of the block. -/

namespace Sys2Proof.Machine

/-- The words of a list stored at word indices `k`, `k + 1`, ... -/
def Memory.load (m : Memory) (k : Nat) : List Word → Memory
  | [] => m
  | w :: ws => Memory.load (m.writeWord k w) (k + 1) ws

/-- The array that holds `M_INIT` from word 0 up.
DESIGN CHOICE (log 9): words past `MEM_WORDS` are dropped, and a shorter list leaves the other words 0. -/
def Memory.ofWords (p : Params) (mInit : List Word) : Memory :=
  Memory.load [] 0 (mInit.take p.memWords)

/-- The state the caller loads from `PC0`, `R_INIT` and `M_INIT` (R33, R220).
A `PC0` that is not a multiple of 4 is refused (R221); one beyond memory is not, and faults at the first fetch. -/
def State.launch (p : Params) (pc0 : Word) (rInit : Regs) (mInit : List Word) :
    Host.Outcome State Fault Refusal :=
  if pc0.extractLsb' 0 2 = 0#2 then
    .next { params := p, pc := pc0, x := rInit, mem := Memory.ofWords p mInit, halt := none }
  else .refused .launchMisalignedPc

end Sys2Proof.Machine
end

