-- ==== Sys2Proof/Machine/Ports.lean ====
section
/-! DEFINITION. The hardware realisation of a cycle (spec/40_datapath.md R145, R146): every unit combinational and
always on, a fixed priority among the stop signals, and one clock edge. Claims compare `step` with it. -/

namespace Sys2Proof.Machine

/-- What a signal carries where nothing drives it: the control vector of an `eop` without a ROM row, and the data of a
memory port whose index is outside the array. R146 calls such inputs meaningless, so claims hold for every value. -/
structure Undriven where
  ctl : Ctl
  imemRdata : Word
  dmemRdata : Word
  deriving DecidableEq, Repr

/-! ### The orchestrator's inputs and outputs -/

/-- The stop signals, from the first to the last of their priority (R146). -/
inductive StopSignal where
  | faultFetch
  | haltFetch
  | haltDecode
  | haltAlu
  | haltMem
  | faultMem
  deriving DecidableEq, Repr

/-- The halt cause that names a signal, none for a fault signal (R146, R200). -/
def StopSignal.cause : StopSignal → Option HaltCause
  | .faultFetch => none
  | .haltFetch => some .fetchZero
  | .haltDecode => some .badOpcode
  | .haltAlu => some .badALUOp
  | .haltMem => some .haltAddress
  | .faultMem => none

/-- The model fault of a signal, none for a halt signal (R205). -/
def StopSignal.reason (pc aluRes : Word) : StopSignal → Option Fault
  | .faultFetch => some (.fetchOutOfRange pc)
  | .haltFetch => none
  | .haltDecode => none
  | .haltAlu => none
  | .haltMem => none
  | .faultMem => some (.memOutOfRange aluRes)

/-- Whether a signal is a `halt_*` (R146). -/
def StopSignal.isHalt (sig : StopSignal) : Bool := sig.cause.isSome

/-- What ORCH takes in, one line for each stop signal (R146). -/
structure StopLines where
  faultFetch : Bool
  haltFetch : Bool
  haltDecode : Bool
  haltAlu : Bool
  haltMem : Bool
  faultMem : Bool
  deriving DecidableEq, Repr

/-- The deciding signal: the first asserted one in the priority of R146. -/
def StopLines.deciding (l : StopLines) : Option StopSignal :=
  if l.faultFetch then some .faultFetch
  else if l.haltFetch then some .haltFetch
  else if l.haltDecode then some .haltDecode
  else if l.haltAlu then some .haltAlu
  else if l.haltMem then some .haltMem
  else if l.faultMem then some .faultMem
  else none

/-- What ORCH puts out: `halt`, `fault` and the commit enable (R143, R146). -/
structure OrchOut where
  halt : Bool
  fault : Bool
  commit : Bool
  deriving DecidableEq, Repr

/-- ORCH: the deciding signal drives `halt` or `fault`, and `commit = not halt and not fault` (R146). -/
def orchestrate (l : StopLines) : OrchOut :=
  let halt := l.deciding.any StopSignal.isHalt
  let fault := l.deciding.any (fun sig => !sig.isHalt)
  { halt := halt, fault := fault, commit := !halt && !fault }

/-! ### The unit ports -/

/-- The signals of R146, unit by unit in the order of its rows.
`pc` is state, and an input of one unit that is an output of another stands once, at the unit that drives it. -/
structure Ports where
  /-- IFU's input from the memory's fetch port. -/
  imemRdata : Word
  imemIndex : BitVec 30
  instr : Word
  /-- PART's outputs: `op`, `shamt` and `funct` here, `rs`, `rt`, `rd`, `imm` and `target` in `fields`. -/
  op : Opcode
  shamt : Shamt
  funct : Funct
  fields : Fields
  eop : Eop
  /-- DEC's nine control signals. -/
  ctl : Ctl
  /-- RF's read addresses. -/
  ra1 : RegIdx
  ra2 : RegIdx
  rd1 : Word
  rd2 : Word
  ext : Word
  aluRes : Word
  zero : Bool
  /-- MAU's input from the memory's data port. -/
  dmemRdata : Word
  dmemIndex : BitVec 30
  dmemWe : Bool
  dmemWdata : Word
  memdata : Word
  wa : RegIdx
  wd : Word
  we : Bool
  nextPc : Word
  /-- The units' `halt_*` and `fault_*` outputs, which ORCH takes in. -/
  stops : StopLines
  orch : OrchOut
  deriving DecidableEq, Repr

/-- The values the units settle to between two clock edges (R145). -/
def ports (u : Undriven) (s : State) : Ports :=
  let imemIndex := s.pc.extractLsb' 2 30
  let faultFetch := decide (s.params.memWords ≤ imemIndex.toNat)
  let imemRdata := if faultFetch then u.imemRdata else s.mem.readWord imemIndex.toNat
  let instr := imemRdata
  let fields := fieldsOf instr
  let eop := resolve s.params (opOf instr) (functOf instr)
  let ctl := ((romRow s.params eop).map (romCtl s.params)).getD u.ctl
  let rd1 := regRead s.x fields.rs
  let rd2 := regRead s.x fields.rt
  let ext := sext32 fields.imm
  let out := alu rd1 (operandB ctl rd2 ext) ctl.aluOp
  let dmemIndex := out.result.extractLsb' 2 30
  let inRange := decide (dmemIndex.toNat < s.params.memWords)
  let dmemRdata := if inRange then s.mem.readWord dmemIndex.toNat else u.dmemRdata
  let memdata := if ctl.memRead then dmemRdata else 0#32
  let stops : StopLines :=
    { faultFetch := faultFetch
      haltFetch := instr == 0#32
      haltDecode := (romRow s.params eop).isNone
      haltAlu := false
      haltMem := haltTestApplies s.params ctl && dmemIndex.toNat == s.params.haltIndex
      faultMem := (ctl.memRead || ctl.memWrite) && !inRange }
  { imemRdata := imemRdata
    imemIndex := imemIndex
    instr := instr
    op := opOf instr
    shamt := shamtOf instr
    funct := functOf instr
    fields := fields
    eop := eop
    ctl := ctl
    ra1 := fields.rs
    ra2 := fields.rt
    rd1 := rd1
    rd2 := rd2
    ext := ext
    aluRes := out.result
    zero := out.zero
    dmemRdata := dmemRdata
    dmemIndex := dmemIndex
    dmemWe := ctl.memWrite
    dmemWdata := rd2
    memdata := memdata
    wa := writeIndex ctl fields
    wd := writeValue ctl memdata out.result
    we := ctl.regWrite
    nextPc := pcUpdate s.pc fields.target ext ctl out.zero
    stops := stops
    orch := orchestrate stops }

/-! ### The clock edge -/

/-- The state elements after the clock edge, whatever the outcome: `commit` gates the load of `pc`, the register write
and the memory write (R145, R146). The `halt` field takes the cause that names the deciding signal. -/
def edgeState (q : Ports) (s : State) : State :=
  { s with
    pc := if q.orch.commit then q.nextPc else s.pc
    x := regWrite s.x q.wa q.wd (q.we && q.orch.commit)
    mem := if q.dmemWe && q.orch.commit then s.mem.writeWord q.dmemIndex.toNat q.dmemWdata else s.mem
    halt := q.stops.deciding.bind StopSignal.cause }

/-- The outcome of the cycle that the clock edge ends: the fault of a deciding fault signal, else the loaded state
(R145, R206; a halt is a next state, log 1). -/
def clockEdge (q : Ports) (s : State) : Host.Outcome State Fault Refusal :=
  match q.stops.deciding.bind (StopSignal.reason s.pc q.aluRes) with
  | some r => .fault r
  | none => .next (edgeState q s)

end Sys2Proof.Machine
end

