-- ==== Sys2Proof/Machine/SingleCycle.lean ====
section
/-! DEFINITION. The pseudocode of spec/40_datapath.md R140, written out on the fetched word: fields, effective opcode,
ROM vector and stages in one body, without the instruction syntax. Claims compare `step` with it. -/

namespace Sys2Proof.Machine

/-- R140 from Register-Read on, its ROM vector `ctl` given. -/
def cycleOfVector (ctl : Ctl) (instr : Word) (s : State) : Host.Outcome State Fault Refusal :=
  let rd1 := regRead s.x (rsOf instr)
  let rd2 := regRead s.x (rtOf instr)
  let ext := sext32 (immOf instr)
  let out := alu rd1 (if ctl.aluSrc then ext else rd2) ctl.aluOp
  let k := wordIndex out.result
  if 7 < ctl.aluOp.toNat then .next (s.markHalt .badALUOp)
  else if (s.params.haltCheckAll || ctl.memRead || ctl.memWrite) = true ∧ k = s.params.haltIndex then
    .next (s.markHalt .haltAddress)
  else if (ctl.memRead || ctl.memWrite) = true ∧ s.params.memWords ≤ k then .fault (.memOutOfRange out.result)
  else
    let memdata := if ctl.memRead then s.mem.readWord k else 0#32
    let mem' := if ctl.memWrite then s.mem.writeWord k rd2 else s.mem
    let x' :=
      if !ctl.regWrite then s.x
      else if ctl.memtoReg then regSet s.x (rtOf instr) memdata
      else if ctl.regDst then regSet s.x (rdOf instr) out.result
      else regSet s.x (rtOf instr) out.result
    let pc' :=
      if ctl.branch && out.zero then s.pc + (ext <<< 2) + 4#32
      else if ctl.jump then (targetOf instr).setWidth 32 <<< 2
      else s.pc + 4#32
    .next { s with pc := pc', x := x', mem := mem', halt := none }

/-- R140 whole: a halting cycle changes nothing but the `halt` output (R142, R143). -/
def singleCycle (s : State) : Host.Outcome State Fault Refusal :=
  if s.params.memWords ≤ wordIndex s.pc then .fault (.fetchOutOfRange s.pc)
  else
    let instr := s.mem.readWord (wordIndex s.pc)
    if instr = 0#32 then .next (s.markHalt .fetchZero)
    else
      match romRow s.params (resolve s.params (opOf instr) (functOf instr)) with
      | none => .next (s.markHalt .badOpcode)
      | some row => cycleOfVector (romCtl s.params row) instr s

end Sys2Proof.Machine
end

