-- ==== Sys2Proof/Safety.lean ====
section
/-! DEFINITION. The terms claims use: what the caller sees of a cycle, the invariant of a run, and what each instruction
may write. -/

namespace Sys2Proof.Machine

/-- The next state of an outcome, if it is one. -/
def nextOf : Host.Outcome State Fault Refusal → Option State
  | .next t => some t
  | .fault _ => none
  | .refused _ => none

/-- The model fault of an outcome, if it is one. -/
def faultOf : Host.Outcome State Fault Refusal → Option Fault
  | .next _ => none
  | .fault r => some r
  | .refused _ => none

/-- The block's output `halt` in a cycle with this outcome (R143). -/
def haltOutput (o : Host.Outcome State Fault Refusal) : Bool :=
  ((nextOf o).bind State.halt).isSome

/-- The block's output `fault` in a cycle with this outcome (R143, R206). -/
def faultOutput (o : Host.Outcome State Fault Refusal) : Bool := (faultOf o).isSome

/-- The program counter is a multiple of 4 (R24). -/
abbrev State.pcAligned (s : State) : Prop := s.pc.extractLsb' 0 2 = 0#2

/-- Every cell of memory lies inside the array of `MEM_WORDS` words (R40). -/
abbrev State.memInArray (s : State) : Prop := ∀ c ∈ s.mem, c.1 < 4 * s.params.memWords

/-- The invariant of a run: memory is canonical and inside the array, and the pc is aligned (R24, R26, R40). -/
abbrev State.Inv (s : State) : Prop := s.mem.wf ∧ s.memInArray ∧ s.pcAligned

/-- The byte address of a load or store: base plus sign-extended offset, modulo 2^32 (R170, R171). -/
abbrev dataAddress (s : State) (rs : RegIdx) (imm : Imm) : Word := regRead s.x rs + sext32 imm

/-- The ALU result `v` makes a cycle that accesses no memory halt (R126, R150). -/
abbrev inHaltWindow (s : State) (v : Word) : Prop :=
  s.params.haltCheckAll = true ∧ wordIndex v = s.params.haltIndex

/-- The ALU result of a `j` cycle, which only the halt-index test uses (R185). -/
abbrev jumpAluResult (s : State) (target : Target) : Word :=
  aluResult (regRead s.x (target.extractLsb' 21 5))
    (if s.params.jAluSrc then sext32 (target.extractLsb' 0 16) else regRead s.x (target.extractLsb' 16 5))
    s.params.jAluOp

/-- The register an instruction may write, by its result field (R64); none for `sw`, `beq`, `j` and the halting rows. -/
def destination : Instr → Option RegIdx
  | .halt => none
  | .slt _ _ rd _ => some rd
  | .sltu _ _ rd _ => some rd
  | .add _ _ rd _ _ => some rd
  | .j _ => none
  | .beq _ _ _ => none
  | .addi _ rt _ => some rt
  | .lui _ rt _ => some rt
  | .lw _ rt _ => some rt
  | .sw _ _ _ => none
  | .unsupported _ => none

/-- The word index an instruction stores to: that of the address of an `sw` (R171), none for every other. -/
def storeIndex (s : State) : Instr → Option Nat
  | .halt => none
  | .slt _ _ _ _ => none
  | .sltu _ _ _ _ => none
  | .add _ _ _ _ _ => none
  | .j _ => none
  | .beq _ _ _ => none
  | .addi _ _ _ => none
  | .lui _ _ _ => none
  | .lw _ _ _ => none
  | .sw rs _ imm => some (wordIndex (dataAddress s rs imm))
  | .unsupported _ => none

/-- Two states that agree on everything but the program counter. -/
abbrev sameButPc (s t : State) : Prop :=
  s.params = t.params ∧ s.x = t.x ∧ s.mem = t.mem ∧ s.halt = t.halt

end Sys2Proof.Machine
end

