-- ==== Sys2Proof/Certificates/Slice0/Obligations.lean ====
section
/-! DEFINITION. The statements for the provers. Each docstring names the rule of spec/ that the statement formalises. -/

open Sys2Proof Sys2Proof.Machine

/-! ### Encoding and decoding -/

/-- The words that spec/ writes out as examples decode to the instructions they stand for (the examples of R151 to
R155, R170 to R172, R180, R181, R208 and spec/95_test_vectors.md section 2.3). The opcode numbers and field positions
are the spec's decisions D1 and D2 (log 10). The defaults are log 3, and the last word halts as one of no supported
operation by D20 (log 20). -/
def Obligations.SpecExampleWordsDecode : Prop :=
  decodeWord Params.default 0x00000000#32 = .halt ∧
  decodeWord Params.default 0x20010005#32 = .addi 0#5 1#5 5#16 ∧
  decodeWord Params.default 0x00221820#32 = .add 1#5 2#5 3#5 0#5 0x20#6 ∧
  decodeWord Params.default 0x00221822#32 = .add 1#5 2#5 3#5 0#5 0x22#6 ∧
  decodeWord Params.default 0x0000000C#32 = .add 0#5 0#5 0#5 0#5 0x0C#6 ∧
  decodeWord Params.default 0x0022202A#32 = .slt 1#5 2#5 4#5 0#5 ∧
  decodeWord Params.default 0x0022202B#32 = .sltu 1#5 2#5 4#5 0#5 ∧
  decodeWord Params.default 0x3C011234#32 = .lui 0#5 1#5 0x1234#16 ∧
  decodeWord Params.default 0x8C220000#32 = .lw 1#5 2#5 0#16 ∧
  decodeWord Params.default 0xAC220004#32 = .sw 1#5 2#5 4#16 ∧
  decodeWord Params.default 0x10220001#32 = .beq 1#5 2#5 1#16 ∧
  decodeWord Params.default 0x08000002#32 = .j 2#26 ∧
  decodeWord Params.default 0x04000000#32 = .unsupported 0x04000000#32

/-- Decoding the bytes of any well-formed instruction, whatever bytes follow, gives it back with every operand (R60,
R61, R65, R86), under every setting of the parameters. The opcode numbers and field positions are the spec's decisions
D1 and D2 (log 10). The encoding of a compare and the byte order are the model's choice (log 16, log 7). -/
def Obligations.DecodeOfEncodeGivesInstrBack : Prop :=
  ∀ (p : Params) (i : Instr) (rest : List Byte), i.wellFormed p = true →
    decodeBytes p (encodeBytes i ++ rest) = .ok (i, rest)

/-- Under the default alias parameters encoding the decoded instruction gives every word back (R61, R85). The opcode
numbers and field positions are the spec's decisions D1 and D2 (log 10). The default alias parameters are the spec's
decisions D3 and D4 (log 3). -/
def Obligations.EncodeOfDecodeGivesWordBack : Prop :=
  ∀ p : Params, p.aliasRequiresOp0 = true → p.aliasCollideSlt = none → p.aliasCollideSltu = none →
    ∀ w : Word, encode (decodeWord p w) = w

/-- Every word decodes to a well-formed instruction, under every setting of the parameters (R66, R70 to R72, R82,
R83). That every word has an instruction is the model's form (log 14), and the corners of the collision parameters its
reading (log 12). -/
def Obligations.DecodedInstrIsWellFormed : Prop :=
  ∀ (p : Params) (w : Word), (decodeWord p w).wellFormed p = true

/-- R83: every word of opcode 0 but the sentinel whose function code is not a compare code is an add, whatever `shamt`
and `funct` hold, and it runs as the conventional `add` of its registers. The opcode and function-code numbers are the
spec's decision D2 (log 10), and that opcode 0 stays an add where a collision parameter names it is the model's
reading of R86 (log 12). -/
def Obligations.RFormatWordsDecodeAsAdd : Prop :=
  ∀ (p : Params) (w : Word), w ≠ 0#32 → opOf w = 0x00#6 → functOf w ≠ 0x2A#6 → functOf w ≠ 0x2B#6 →
    decodeWord p w = .add (rsOf w) (rtOf w) (rdOf w) (shamtOf w) (functOf w) ∧
    ∀ s, exec (decodeWord p w) s = exec (.add (rsOf w) (rtOf w) (rdOf w) 0#5 0x20#6) s

/-- R71: with `ALIAS_REQUIRES_OP0 = false` any word whose low six bits are a compare code decodes as that compare;
with `true` only one of opcode 0 does, when no parameter makes its opcode collide. R71 and its default are the spec's
decision D3 (log 3). The opcode numbers and field positions are the spec's decisions D1 and D2 (log 10). -/
def Obligations.RewriteFollowsAliasRequiresOp0 : Prop :=
  Params.default.aliasRequiresOp0 = true ∧
  ∀ (p : Params) (w : Word),
    (p.aliasRequiresOp0 = false ∨ opOf w = 0x00#6 →
      (functOf w = 0x2A#6 → decodeWord p w = .slt (rsOf w) (rtOf w) (rdOf w) (shamtOf w)) ∧
      (functOf w = 0x2B#6 → decodeWord p w = .sltu (rsOf w) (rtOf w) (rdOf w) (shamtOf w))) ∧
    (p.aliasRequiresOp0 = true → opOf w ≠ 0x00#6 → p.aliasCollideSlt = none → p.aliasCollideSltu = none →
      ∀ (rs rt rd : RegIdx) (shamt : Shamt),
        decodeWord p w ≠ .slt rs rt rd shamt ∧ decodeWord p w ≠ .sltu rs rt rd shamt)

/-- R72 for a collision opcode other than 0: a word of that opcode that R71 does not rewrite decodes with the slt (or
sltu) row. That slt comes first where both parameters name one opcode, and that opcode 0 is left alone, is the model's
reading of R86 (log 12). The parameters of R72 are the spec's decision D4 (log 3). The opcode numbers and field
positions are the spec's decisions D1 and D2 (log 10). -/
def Obligations.CollisionOpcodesDecodeAsCompares : Prop :=
  ∀ (p : Params) (w : Word), opOf w ≠ 0x00#6 →
    (p.aliasRequiresOp0 = true ∨ (functOf w ≠ 0x2A#6 ∧ functOf w ≠ 0x2B#6)) →
    (p.aliasCollideSlt = some (opOf w) → decodeWord p w = .slt (rsOf w) (rtOf w) (rdOf w) (shamtOf w)) ∧
    (p.aliasCollideSlt ≠ some (opOf w) → p.aliasCollideSltu = some (opOf w) →
      decodeWord p w = .sltu (rsOf w) (rtOf w) (rdOf w) (shamtOf w))

/-- R81: the rows of the control ROM and their vectors, the two cells of `j` from the parameters. The cells marked d
are the spec's decision D5 (log 11), the cells of `j` its D6 (log 3), and the opcode numbers its D2 (log 10). -/
def Obligations.RomHoldsTheNineVectors : Prop :=
  ∀ p : Params, p.aliasCollideSlt = none → p.aliasCollideSltu = none →
    romRow p 0x08#7 = some .addi ∧ romRow p 0x00#7 = some .add ∧ romRow p eopSlt = some .slt ∧
    romRow p 0x2B#7 = some .sw ∧ romRow p eopSltu = some .sltu ∧ romRow p 0x23#7 = some .lw ∧
    romRow p 0x02#7 = some .j ∧ romRow p 0x04#7 = some .beq ∧ romRow p 0x0F#7 = some .lui ∧
    (∀ row, romCtl p row =
      { regDst := row = .add ∨ row = .slt ∨ row = .sltu
        jump := row = .j
        branch := row = .beq
        memRead := row = .lw
        memtoReg := row = .lw
        memWrite := row = .sw
        aluSrc := row = .addi ∨ row = .sw ∨ row = .lw ∨ row = .lui ∨ (row = .j ∧ p.jAluSrc = true)
        regWrite := row ≠ .sw ∧ row ≠ .j ∧ row ≠ .beq
        aluOp := if row = .slt then 2#3 else if row = .sltu then 3#3 else if row = .beq then 1#3
          else if row = .lui then 6#3 else if row = .j then p.jAluOp else 0#3 })

/-- R82 and R85: under the default alias parameters a nonzero word whose opcode is not one of the seven halts the
cycle with `BadOpcode`; nothing else changes. A halt as a next state is the model's form (log 1). That every opcode
but the seven halts is the spec's decision D20 (log 20), and the seven numbers are its D2 (log 10). The default alias
parameters are its D3 and D4 (log 3). -/
def Obligations.UnsupportedOpcodeHalts : Prop :=
  (∀ (w : Word) (s : State), exec (.unsupported w) s = .next { s with halt := some .badOpcode }) ∧
  ∀ s : State, s.params.aliasRequiresOp0 = true → s.params.aliasCollideSlt = none →
    s.params.aliasCollideSltu = none → wordIndex s.pc < s.params.memWords →
    opOf (s.mem.readWord (wordIndex s.pc)) ∉ [0x00#6, 0x02#6, 0x04#6, 0x08#6, 0x0F#6, 0x23#6, 0x2B#6] →
    step s = .next { s with halt := some .badOpcode }

/-! ### The cycle -/

/-- A step runs the instruction that the bytes at the program counter decode to (R120, R140). The order of the four
bytes is the model's choice (log 7). -/
def Obligations.StepRunsDecodedInstruction : Prop :=
  ∀ (s : State) (i : Instr), wordIndex s.pc < s.params.memWords →
    decodeBytes s.params (fetchBytes s) = .ok (i, []) → step s = exec i s

/-- The word the host places at the fetch is the word the next step runs (log 8). -/
def Obligations.PlacedWordIsTheNextInstruction : Prop :=
  ∀ (s : State) (nbits w : Nat), wordIndex s.pc < s.params.memWords →
    step (s.withFetchWord nbits w) =
      exec (decodeWord s.params (BitVec.ofNat 32 (w % 2 ^ nbits))) (s.withFetchWord nbits w)

/-- R46: a fetch at or above `MEM_WORDS`, the halt index included, faults, and the fetch has no other check. The fault
is the spec's decision D10 (log 13). -/
def Obligations.FetchBeyondMemoryFaults : Prop :=
  ∀ s : State,
    (s.params.memWords ≤ wordIndex s.pc → step s = .fault (.fetchOutOfRange s.pc)) ∧
    (wordIndex s.pc < s.params.memWords → fetch s = .ok (s.mem.readWord (wordIndex s.pc)))

/-- R121: fetching the all-zero word halts, at any pc inside memory, and nothing is written; any other word goes on to
the partitioner, and halts where its opcode has no row (R82). A halting cycle is a next state in which the `halt`
output alone differs, which is the model's form (log 1). -/
def Obligations.ZeroWordHaltsTheCycle : Prop :=
  (∀ s : State, exec .halt s = .next { s with halt := some .fetchZero }) ∧
  ∀ s : State, wordIndex s.pc < s.params.memWords →
    let w := s.mem.readWord (wordIndex s.pc)
    (w = 0#32 → step s = .next { s with halt := some .fetchZero }) ∧
    (w ≠ 0#32 → step s =
      match romRow s.params (resolve s.params (opOf w) (functOf w)) with
      | none => .next { s with halt := some .badOpcode }
      | some row => exec (instrOfRow w row) s)

/-- R140: the step, instruction by instruction, is the one-body cycle of the orchestrator. Both sides answer a next
state where R140 returns `Halt(cause)`, which is the model's form (log 1). The faults are the spec's decisions D9 and
D10 (log 13). -/
def Obligations.StepIsTheSingleCycle : Prop :=
  ∀ s : State, step s = singleCycle s

/-- R145 and R146: the port-level realisation, its stop signals in their fixed priority and its commit enable, makes
the same step, whatever the undriven signals carry. A halt as a next state is the model's form (log 1). The ports are
the spec's decision D16. The faults are the spec's decisions D9 and D10 (log 13). -/
def Obligations.ClockEdgeRealisesStep : Prop :=
  ∀ (u : Undriven) (s : State), clockEdge (ports u s) s = step s

/-- R143 and R146: the outputs `halt` and `fault` of ORCH are those of the step, each is 1 exactly when the deciding
stop signal is of its kind, `commit` is 1 exactly when no stop signal is asserted, and the halt cause names the
deciding signal. A halt as a next state is the model's form (log 1), and the `halt` field that holds the internal
cause its choice (log 2). The signals are the spec's decision D16, the `fault` output and the causes its D17, and the
faults its D9 and D10 (log 13). -/
def Obligations.OutputsFollowTheDecidingSignal : Prop :=
  ∀ (u : Undriven) (s : State),
    let q := ports u s
    q.orch.halt = haltOutput (step s) ∧ q.orch.fault = faultOutput (step s) ∧
    (q.orch.halt = true ↔ ∃ sig c, q.stops.deciding = some sig ∧ sig.cause = some c) ∧
    (q.orch.fault = true ↔ ∃ sig r, q.stops.deciding = some sig ∧ sig.reason s.pc q.aluRes = some r) ∧
    (q.orch.commit = true ↔ q.stops.faultFetch = false ∧ q.stops.haltFetch = false ∧ q.stops.haltDecode = false ∧
      q.stops.haltAlu = false ∧ q.stops.haltMem = false ∧ q.stops.faultMem = false) ∧
    ∀ t, step s = .next t → t.halt = q.stops.deciding.bind StopSignal.cause

/-- R142 and R145: the edge that ends a halting or faulting cycle loads no state element, and the edge that ends any
other cycle loads `pc` with the next pc and the registers and memory under their write enables, as the step does. A
halt as a next state is the model's form (log 1). The ports and the clock edge are the spec's decision D16, and that a
fault loads nothing its D9 and D10 (log 13). -/
def Obligations.StopGatesEveryLoad : Prop :=
  ∀ (u : Undriven) (s : State),
    let q := ports u s
    let t := edgeState q s
    (haltOutput (step s) = true ∨ faultOutput (step s) = true → t.pc = s.pc ∧ t.x = s.x ∧ t.mem = s.mem) ∧
    (haltOutput (step s) = false → faultOutput (step s) = false →
      step s = .next t ∧ t.pc = q.nextPc ∧ t.x = regWrite s.x q.wa q.wd q.we ∧
      t.mem = if q.dmemWe then s.mem.writeWord q.dmemIndex.toNat q.dmemWdata else s.mem)

/-! ### The start of a run and the invariant -/

/-- The state after reset meets the invariant, its pc is the default `PC0` and its parameters are the defaults of R6.
The registers and memory it holds are the model's choice (log 4, log 6). There is no reset state in the spec (R220):
that `State.reset` has the default `PC0` is the model's choice (log 5, D11), and that it has the default parameters is
too (log 3). -/
def Obligations.ResetMeetsInvariant : Prop :=
  State.reset.Inv ∧ State.reset.pc = 0#32 ∧ State.reset.params.memWords = 16384 ∧
  State.reset.params.aliasRequiresOp0 = true ∧ State.reset.params.aliasCollideSlt = none ∧
  State.reset.params.aliasCollideSltu = none ∧ State.reset.params.jAluSrc = false ∧
  State.reset.params.jAluOp = 0#3 ∧ State.reset.params.haltCheckAll = true

/-- Every step keeps the invariant: memory stays canonical and inside the array, and the pc a multiple of 4 (R24, R26,
R40). The canonical form of memory is the model's own form (log 6). -/
def Obligations.StepKeepsInvariant : Prop :=
  ∀ s t : State, s.Inv → step s = .next t → t.Inv

/-- R221: a launch at a pc that is not a multiple of 4 is refused, and a launch beyond memory faults at its first
fetch. The refusal is the spec's decision D12 (log 17), the default `PC0` its D11 (log 5), and the fault its D10 (log
13). -/
def Obligations.MisalignedLaunchIsRefused : Prop :=
  Config.pc0 = 0#32 ∧
  ∀ (p : Params) (pc0 : Word) (rInit : Regs) (mInit : List Word),
    (pc0.toNat % 4 ≠ 0 → State.launch p pc0 rInit mInit = .refused .launchMisalignedPc) ∧
    (pc0.toNat % 4 = 0 → p.memWords ≤ wordIndex pc0 →
      ∃ t, State.launch p pc0 rInit mInit = .next t ∧ step t = .fault (.fetchOutOfRange pc0))

/-- R33 and R220: an aligned launch starts with the caller's pc, registers and memory words, and meets the invariant.
Words that the caller's list does not reach are 0 (log 9), and the `halt` field is none (log 2). The caller's inputs
are the spec's decision D11, and the refusal of any other pc its D12 (log 17). The canonical form of memory is the
model's own form (log 6). -/
def Obligations.LaunchLoadsTheCallersState : Prop :=
  ∀ (p : Params) (pc0 : Word) (rInit : Regs) (mInit : List Word), pc0.toNat % 4 = 0 →
    ∃ t, State.launch p pc0 rInit mInit = .next t ∧ t.Inv ∧ t.params = p ∧ t.pc = pc0 ∧ t.x = rInit ∧
      t.halt = none ∧ ∀ k, k < p.memWords → t.mem.readWord k = (mInit[k]?).getD 0#32

/-- No step changes the parameters: they are fixed for the machine (R6, log 3). -/
def Obligations.StepKeepsParameters : Prop :=
  ∀ s t : State, step s = .next t → t.params = s.params

/-! ### Halts and faults -/

/-- R142 for halts, and R203: after a cycle that halts, `pc`, `x` and `M` are exactly those before it. A halt
as a next state is the model's form (log 1). -/
def Obligations.HaltCommitsNothing : Prop :=
  ∀ (s t : State) (c : HaltCause), step s = .next t → t.halt = some c →
    t.pc = s.pc ∧ t.x = s.x ∧ t.mem = s.mem ∧ t.params = s.params

/-- R144: halt is a fixed point of the step, and no halted latch exists: the `halt` output of the last cycle does not
influence the next one. A halt as a next state and the `halt` field are the model's form (log 1, log 2). -/
def Obligations.HaltIsFixedPointWithoutLatch : Prop :=
  (∀ (s t : State) (c : HaltCause), step s = .next t → t.halt = some c → step t = .next t) ∧
  ∀ (s : State) (h : Option HaltCause), step { s with halt := h } = step s

/-- R124: with a 3-bit ALUOp the condition of the dispatch test is always false, and the cause `BadALUOp` never
occurs. The halt cause of a next state is the model's form (log 1, log 2). The test that never fires is kept by the
spec's choice (log 15). -/
def Obligations.BadAluOpNeverOccurs : Prop :=
  (∀ (ctl : Ctl) (rd1 rd2 ext : Word), ∃ out, aluDispatch ctl rd1 rd2 ext = .ok out) ∧
  ∀ s t : State, step s = .next t → t.halt ≠ some .badALUOp

/-- R200 and R202: in a cycle that ends in a next state, `FetchZero` is exactly the zero word, `BadOpcode` exactly a
nonzero word without a ROM row, and `HaltAddress` exactly a nonzero word with a row whose ALU result has the halt
index as its word index while the test of R126 applies; `BadALUOp` never is the cause. A halt as a next state is the
model's form (log 1). The scope of the test is the spec's decision D7 (log 3). -/
def Obligations.HaltCausesInStageOrder : Prop :=
  ∀ s t : State, step s = .next t →
    let w := s.mem.readWord (wordIndex s.pc)
    let row := romRow s.params (resolve s.params (opOf w) (functOf w))
    wordIndex s.pc < s.params.memWords ∧
    (t.halt = some .fetchZero ↔ w = 0#32) ∧
    (t.halt = some .badOpcode ↔ w ≠ 0#32 ∧ row = none) ∧
    t.halt ≠ some .badALUOp ∧
    (t.halt = some .haltAddress ↔ w ≠ 0#32 ∧ ∃ r, row = some r ∧
      let ctl := romCtl s.params r
      let b := if ctl.aluSrc then sext32 (immOf w) else regRead s.x (rtOf w)
      (s.params.haltCheckAll || ctl.memRead || ctl.memWrite) = true ∧
      wordIndex (aluResult (regRead s.x (rsOf w)) b ctl.aluOp) = s.params.haltIndex)

/-- R205: the two model faults are the only faults of a step, each exactly on its condition, and no step is refused.
Both faults are the spec's decisions D9 and D10 (log 13). -/
def Obligations.FaultsAreExactlyTheTwo : Prop :=
  ∀ s : State,
    (∀ r, step s = .fault r ↔
      (s.params.memWords ≤ wordIndex s.pc ∧ r = .fetchOutOfRange s.pc) ∨
      (wordIndex s.pc < s.params.memWords ∧ ∃ rs rt imm,
        (decodeWord s.params (s.mem.readWord (wordIndex s.pc)) = .lw rs rt imm ∨
          decodeWord s.params (s.mem.readWord (wordIndex s.pc)) = .sw rs rt imm) ∧
        s.params.haltIndex < wordIndex (dataAddress s rs imm) ∧ r = .memOutOfRange (dataAddress s rs imm))) ∧
    ∀ r, step s ≠ .refused r

/-- R47: at the default size the halt index is hit exactly by the addresses 0x00010000 to 0x00010003, and at any size
a load or store whose address hits it halts with no read, no write and no pc change. The default size is the spec's
decision D21 (log 3), and a halt as a next state is the model's form (log 1). -/
def Obligations.HaltIndexEndsMemoryAccess : Prop :=
  (∀ v : Word, wordIndex v = Params.default.haltIndex ↔ 0x00010000 ≤ v.toNat ∧ v.toNat ≤ 0x00010003) ∧
  ∀ (s : State) (rs rt : RegIdx) (imm : Imm), wordIndex (dataAddress s rs imm) = s.params.memWords →
    exec (.lw rs rt imm) s = .next { s with halt := some .haltAddress } ∧
    exec (.sw rs rt imm) s = .next { s with halt := some .haltAddress }

/-- R126 with `HALT_CHECK_ALL = false`: an instruction that accesses no memory never halts and completes. Completing
is a next state without a halt (log 1). The parameter is the spec's decision D7 (log 3). -/
def Obligations.NoHaltTestWithoutAccess : Prop :=
  ∀ s : State, s.params.haltCheckAll = false →
    (∀ rs rt imm, ∃ t, exec (.addi rs rt imm) s = .next t ∧ t.halt = none) ∧
    (∀ rs rt imm, ∃ t, exec (.lui rs rt imm) s = .next t ∧ t.halt = none) ∧
    (∀ rs rt imm, ∃ t, exec (.beq rs rt imm) s = .next t ∧ t.halt = none) ∧
    (∀ target, ∃ t, exec (.j target) s = .next t ∧ t.halt = none) ∧
    (∀ rs rt rd shamt funct, ∃ t, exec (.add rs rt rd shamt funct) s = .next t ∧ t.halt = none) ∧
    (∀ rs rt rd shamt, ∃ t, exec (.slt rs rt rd shamt) s = .next t ∧ t.halt = none) ∧
    (∀ rs rt rd shamt, ∃ t, exec (.sltu rs rt rd shamt) s = .next t ∧ t.halt = none)

/-! ### The units -/

/-- R100 to R108: the eight operations in terms of the numbers and bits of their operands, and the zero flag. -/
def Obligations.AluOperationsAsSpecified : Prop :=
  ∀ a b : Word,
    (alu a b 0#3).result.toNat = (a.toNat + b.toNat) % 2 ^ 32 ∧
    (alu a b 1#3).result = a + ~~~b + 1#32 ∧ ((alu a b 1#3).zero = true ↔ a = b) ∧
    (alu a b 2#3).result = (if a.toInt < b.toInt then 1#32 else 0#32) ∧
    (alu a b 3#3).result = (if a.toNat < b.toNat then 1#32 else 0#32) ∧
    (∀ i, (alu a b 4#3).result.getLsbD i = (a.getLsbD i && b.getLsbD i)) ∧
    (∀ i, (alu a b 5#3).result.getLsbD i = (a.getLsbD i || b.getLsbD i)) ∧
    (alu a b 6#3).result = b.extractLsb' 0 16 ++ 0x0000#16 ∧
    (∀ i, i < 32 → (alu a b 7#3).result.getLsbD i = !a.getLsbD i) ∧
    ∀ sel, (alu a b sel).zero = true ↔ (alu a b sel).result = 0x00000000#32

/-- R110: the extender repeats bit 15 in the high half and keeps the low half. -/
def Obligations.SignExtenderRepeatsBit15 : Prop :=
  ∀ v : Imm, sext32 v = (if v.getLsbD 15 then 0xFFFF#16 else 0x0000#16) ++ v

/-- R22, with the write port of R116: a register written is read back, register 0 included, every other register stays,
and a disabled write does nothing. -/
def Obligations.RegisterWriteReadsBack : Prop :=
  ∀ (x : Regs) (r q : RegIdx) (v : Word),
    regRead (regWrite x r v true) q = (if q = r then v else regRead x q) ∧ regWrite x r v false = x

/-- R43 and R44: data reads and writes of one word, with the fault beyond the array; a write changes that word alone,
and keeps the canonical form. The fault is the spec's decision D9 (log 13). The canonical form of memory is the
model's own form (log 6). -/
def Obligations.MemoryPrimitivesReadAndWriteOneWord : Prop :=
  ∀ (p : Params) (m : Memory) (addr v : Word),
    (p.memWords ≤ wordIndex addr →
      memRead p m addr = .error (.memOutOfRange addr) ∧ memWrite p m addr v = .error (.memOutOfRange addr)) ∧
    (wordIndex addr < p.memWords → memRead p m addr = .ok (m.readWord (wordIndex addr)) ∧
      ∃ m', memWrite p m addr v = .ok m' ∧ m'.readWord (wordIndex addr) = v ∧
        (∀ l, l ≠ wordIndex addr → m'.readWord l = m.readWord l) ∧ (m.wf → m'.wf))

/-- R41: the word index is the address divided by 4, the low two bits take no part, and loads and stores whose
addresses differ in them alone do the same. R41 drops the low bits by the spec's decision D8. -/
def Obligations.LowAddressBitsTakeNoPart : Prop :=
  (∀ a : Word, wordIndex a = a.toNat / 4 ∧ wordIndex a = wordIndex (a &&& ~~~3#32)) ∧
  ∀ (s : State) (rs rt : RegIdx) (imm imm' : Imm),
    wordIndex (dataAddress s rs imm) = wordIndex (dataAddress s rs imm') →
    nextOf (exec (.lw rs rt imm) s) = nextOf (exec (.lw rs rt imm') s) ∧
    nextOf (exec (.sw rs rt imm) s) = nextOf (exec (.sw rs rt imm') s)

/-- R131, with the targets of R130: a taken branch goes before a jump, a jump before `pc + 4`, no ROM row has both, and
a branch not taken goes to `pc + 4`. -/
def Obligations.NextPcHasOneSource : Prop :=
  (∀ (ctl : Ctl) (pc ext : Word) (target : Target) (zero : Bool),
    let next := pcUpdate pc target ext ctl zero
    (ctl.branch = true ∧ zero = true → next = pc + ext * 4#32 + 4#32) ∧
    (¬(ctl.branch = true ∧ zero = true) → ctl.jump = true → next.toNat = 4 * target.toNat) ∧
    (¬(ctl.branch = true ∧ zero = true) → ctl.jump = false → next = pc + 4#32)) ∧
  ∀ (p : Params) (row : RomRow), ¬((romCtl p row).branch = true ∧ (romCtl p row).jump = true)

/-! ### What each instruction does

The opcode numbers and field positions in these statements are the spec's decisions D1 and D2 (log 10), and `rd` as the
destination of `add`, `slt` and `sltu` is its decision D5 (log 11).
The faults are its decisions D9 and D10 (log 13), the halt test outside memory accesses its D7, the rewrite of R71 its D3
and the ALU inputs of `j` its D6 (log 3), and a halt is a next state in which `halt` alone differs (log 1). -/

/-- R151: the encoding, vector and effect of `addi`, its halt, and the words the rewrite of R71 takes from it. -/
def Obligations.AddiAddsImmediate : Prop :=
  ∀ (rs rt : RegIdx) (imm : Imm) (s : State),
    let v := regRead s.x rs + imm.signExtend 32
    encode (.addi rs rt imm) = 0x08#6 ++ rs ++ rt ++ imm ∧
    romCtl s.params .addi = ⟨false, false, false, false, false, false, true, true, 0#3⟩ ∧
    (¬inHaltWindow s v →
      exec (.addi rs rt imm) s = .next { s with x := regSet s.x rt v, pc := s.pc + 4#32, halt := none }) ∧
    (inHaltWindow s v → exec (.addi rs rt imm) s = .next { s with halt := some .haltAddress }) ∧
    (s.params.aliasRequiresOp0 = false → imm.extractLsb' 0 6 = 0x2A#6 →
      decodeWord s.params (encode (.addi rs rt imm)) = .slt rs rt (imm.extractLsb' 11 5) (imm.extractLsb' 6 5)) ∧
    (s.params.aliasRequiresOp0 = false → imm.extractLsb' 0 6 = 0x2B#6 →
      decodeWord s.params (encode (.addi rs rt imm)) = .sltu rs rt (imm.extractLsb' 11 5) (imm.extractLsb' 6 5))

/-- R152: the encoding, vector and effect of `add`, whatever `shamt` and `funct` hold, and its halt. -/
def Obligations.AddAddsRegisters : Prop :=
  ∀ (rs rt rd : RegIdx) (shamt : Shamt) (funct : Funct) (s : State),
    let v := regRead s.x rs + regRead s.x rt
    encode (.add rs rt rd shamt funct) = 0x00#6 ++ rs ++ rt ++ rd ++ shamt ++ funct ∧
    romCtl s.params .add = ⟨true, false, false, false, false, false, false, true, 0#3⟩ ∧
    (¬inHaltWindow s v → exec (.add rs rt rd shamt funct) s =
      .next { s with x := regSet s.x rd v, pc := s.pc + 4#32, halt := none }) ∧
    (inHaltWindow s v → exec (.add rs rt rd shamt funct) s = .next { s with halt := some .haltAddress })

/-- R153: the encoding, vector and effect of `slt`. Its result is 0 or 1, so the halt-index test never fires on a memory
of one word or more; that `MEM_WORDS` may be 0, where it does, is the model's choice (log 19). -/
def Obligations.SltComparesSigned : Prop :=
  ∀ (rs rt rd : RegIdx) (shamt : Shamt) (s : State),
    let v := if (regRead s.x rs).toInt < (regRead s.x rt).toInt then 1#32 else 0#32
    encode (.slt rs rt rd shamt) = 0x00#6 ++ rs ++ rt ++ rd ++ shamt ++ 0x2A#6 ∧
    romCtl s.params .slt = ⟨true, false, false, false, false, false, false, true, 2#3⟩ ∧
    (0 < s.params.memWords ∨ s.params.haltCheckAll = false → exec (.slt rs rt rd shamt) s =
      .next { s with x := regSet s.x rd v, pc := s.pc + 4#32, halt := none }) ∧
    (s.params.memWords = 0 → s.params.haltCheckAll = true →
      exec (.slt rs rt rd shamt) s = .next { s with halt := some .haltAddress })

/-- R154: the encoding, vector and effect of `sltu`. Its result is 0 or 1, so the halt-index test never fires on a memory
of one word or more; that `MEM_WORDS` may be 0, where it does, is the model's choice (log 19). -/
def Obligations.SltuComparesUnsigned : Prop :=
  ∀ (rs rt rd : RegIdx) (shamt : Shamt) (s : State),
    let v := if (regRead s.x rs).toNat < (regRead s.x rt).toNat then 1#32 else 0#32
    encode (.sltu rs rt rd shamt) = 0x00#6 ++ rs ++ rt ++ rd ++ shamt ++ 0x2B#6 ∧
    romCtl s.params .sltu = ⟨true, false, false, false, false, false, false, true, 3#3⟩ ∧
    (0 < s.params.memWords ∨ s.params.haltCheckAll = false → exec (.sltu rs rt rd shamt) s =
      .next { s with x := regSet s.x rd v, pc := s.pc + 4#32, halt := none }) ∧
    (s.params.memWords = 0 → s.params.haltCheckAll = true →
      exec (.sltu rs rt rd shamt) s = .next { s with halt := some .haltAddress })

/-- R155: the encoding, vector and effect of `lui`; `rs` has no part in the result. -/
def Obligations.LuiLoadsUpperHalf : Prop :=
  ∀ (rs rt : RegIdx) (imm : Imm) (s : State),
    let v : Word := imm ++ 0x0000#16
    encode (.lui rs rt imm) = 0x0F#6 ++ rs ++ rt ++ imm ∧
    romCtl s.params .lui = ⟨false, false, false, false, false, false, true, true, 6#3⟩ ∧
    (¬inHaltWindow s v →
      exec (.lui rs rt imm) s = .next { s with x := regSet s.x rt v, pc := s.pc + 4#32, halt := none }) ∧
    (inHaltWindow s v → exec (.lui rs rt imm) s = .next { s with halt := some .haltAddress })

/-- R170: the encoding, vector and effect of `lw`, its halt at the halt index, whatever `HALT_CHECK_ALL` is, and its
fault above it. -/
def Obligations.LwLoadsWord : Prop :=
  ∀ (rs rt : RegIdx) (imm : Imm) (s : State),
    let addr := regRead s.x rs + imm.signExtend 32
    encode (.lw rs rt imm) = 0x23#6 ++ rs ++ rt ++ imm ∧
    romCtl s.params .lw = ⟨false, false, false, true, true, false, true, true, 0#3⟩ ∧
    (wordIndex addr < s.params.memWords → exec (.lw rs rt imm) s =
      .next { s with x := regSet s.x rt (s.mem.readWord (wordIndex addr)), pc := s.pc + 4#32, halt := none }) ∧
    (wordIndex addr = s.params.haltIndex → exec (.lw rs rt imm) s = .next { s with halt := some .haltAddress }) ∧
    (s.params.haltIndex < wordIndex addr → exec (.lw rs rt imm) s = .fault (.memOutOfRange addr))

/-- R171: the encoding, vector and effect of `sw`, its halt at the halt index, whatever `HALT_CHECK_ALL` is, and its
fault above it. -/
def Obligations.SwStoresWord : Prop :=
  ∀ (rs rt : RegIdx) (imm : Imm) (s : State),
    let addr := regRead s.x rs + imm.signExtend 32
    encode (.sw rs rt imm) = 0x2B#6 ++ rs ++ rt ++ imm ∧
    romCtl s.params .sw = ⟨false, false, false, false, false, true, true, false, 0#3⟩ ∧
    (wordIndex addr < s.params.memWords → exec (.sw rs rt imm) s =
      .next { s with mem := s.mem.writeWord (wordIndex addr) (regRead s.x rt), pc := s.pc + 4#32, halt := none }) ∧
    (wordIndex addr = s.params.haltIndex → exec (.sw rs rt imm) s = .next { s with halt := some .haltAddress }) ∧
    (s.params.haltIndex < wordIndex addr → exec (.sw rs rt imm) s = .fault (.memOutOfRange addr))

/-- R180: the encoding, vector and effect of `beq`, taken and not taken, and its halt on the difference. -/
def Obligations.BeqBranchesWhenEqual : Prop :=
  ∀ (rs rt : RegIdx) (imm : Imm) (s : State),
    let v := regRead s.x rs - regRead s.x rt
    encode (.beq rs rt imm) = 0x04#6 ++ rs ++ rt ++ imm ∧
    romCtl s.params .beq = ⟨false, false, true, false, false, false, false, false, 1#3⟩ ∧
    (¬inHaltWindow s v → regRead s.x rs = regRead s.x rt →
      exec (.beq rs rt imm) s =
        .next { s with pc := s.pc + imm.signExtend 32 * 4#32 + 4#32, halt := none }) ∧
    (¬inHaltWindow s v → regRead s.x rs ≠ regRead s.x rt →
      exec (.beq rs rt imm) s = .next { s with pc := s.pc + 4#32, halt := none }) ∧
    (inHaltWindow s v → exec (.beq rs rt imm) s = .next { s with halt := some .haltAddress })

/-- R181 and R185: the encoding, vector and effect of `j` for every `J_ALUSRC` and `J_ALUOP`, and its halt on the ALU
result of the fields inside the target. -/
def Obligations.JumpGoesToAbsoluteTarget : Prop :=
  ∀ (target : Target) (s : State),
    encode (.j target) = 0x02#6 ++ target ∧
    romCtl s.params .j = ⟨false, true, false, false, false, false, s.params.jAluSrc, false, s.params.jAluOp⟩ ∧
    (¬inHaltWindow s (jumpAluResult s target) →
      exec (.j target) s = .next { s with pc := BitVec.ofNat 32 (4 * target.toNat), halt := none }) ∧
    (inHaltWindow s (jumpAluResult s target) → exec (.j target) s = .next { s with halt := some .haltAddress })

/-- R132: where a jump goes does not depend on the current pc and stays below 0x10000000. A target outside memory faults
at the next fetch by R181 and R46, the spec's decision D10 (log 13); completing is a next state without a halt (log 1). -/
def Obligations.JumpIgnoresCurrentPc : Prop :=
  ∀ (s t u v : State) (target : Target), sameButPc s t → exec (.j target) s = .next u → exec (.j target) t = .next v →
    u.halt = none →
    u = v ∧ u.pc.toNat = 4 * target.toNat ∧ u.pc.toNat ≤ 0x0FFFFFFC ∧
      (s.params.memWords ≤ target.toNat → step u = .fault (.fetchOutOfRange u.pc))

/-! ### Frames and whole-machine rules -/

/-- The register frame of all eleven constructors: a register other than the result field's is unchanged, and the rows
with no result (`sw`, `beq`, `j`, `halt`, unsupported) change none (R64, R81, R116, R128). That the result field of
`slt`, `sltu` and `add` is `rd` is RegDst of their rows, the spec's decision D5 (log 11). -/
def Obligations.OnlyDestinationRegisterChanges : Prop :=
  ∀ (i : Instr) (s t : State), exec i s = .next t →
    ∀ r : RegIdx, destination i ≠ some r → regRead t.x r = regRead s.x r

/-- The memory frame of all eleven constructors: every byte outside the word an `sw` addresses is unchanged, and every
byte for the others (R44, R125). Which bytes are a word's is the model's layout (log 7). -/
def Obligations.OnlyStoredWordChanges : Prop :=
  ∀ (i : Instr) (s t : State), exec i s = .next t →
    ∀ a : Nat, storeIndex s i ≠ some (a / 4) → t.mem.readByte a = s.mem.readByte a

/-- A cycle changes at most one memory word (R141), and by the ROM's rows never both a register and memory (R81). -/
def Obligations.AtMostOneWordChangesAndNeverBoth : Prop :=
  ∀ s t : State, step s = .next t →
    (∀ k l : Nat, t.mem.readWord k ≠ s.mem.readWord k → t.mem.readWord l ≠ s.mem.readWord l → k = l) ∧
    (t.x = s.x ∨ t.mem = s.mem)

/-- R23: a cycle reads only the two registers its word names, as they were before it, and changes at most one
register. Two states that agree on the parameters, the pc, memory and those two registers fault alike, and their next
states agree on the pc, memory, the halt output and every register that agreed before; a register that one cycle
changes gets the same value in the other. The halt output of a next state is the model's form (log 1, log 2). Which
bits name the two registers is the spec's decision D1 (log 10), and which register a row writes its D5 (log 11). The
faults are the spec's decisions D9 and D10 (log 13). -/
def Obligations.CycleReadsTwoRegistersWritesOne : Prop :=
  (∀ s t : State, s.params = t.params → s.pc = t.pc → s.mem = t.mem →
    let w := s.mem.readWord (wordIndex s.pc)
    regRead s.x (rsOf w) = regRead t.x (rsOf w) → regRead s.x (rtOf w) = regRead t.x (rtOf w) →
    faultOf (step s) = faultOf (step t) ∧
    ∀ u v : State, step s = .next u → step t = .next v →
      u.pc = v.pc ∧ u.mem = v.mem ∧ u.halt = v.halt ∧
      ∀ r : RegIdx, (regRead s.x r = regRead t.x r ∨ regRead u.x r ≠ regRead s.x r) → regRead u.x r = regRead v.x r) ∧
  ∀ s t : State, step s = .next t →
    ∀ r q : RegIdx, regRead t.x r ≠ regRead s.x r → regRead t.x q ≠ regRead s.x q → r = q

/-- R54 for the very next cycle: a store that completes is seen by the fetch at `pc + 4` where that is the stored word,
and storing zero there makes that fetch halt. A halt as a next state is the model's form (log 1). -/
def Obligations.StoreSeenByNextFetch : Prop :=
  ∀ (s t : State) (rs rt : RegIdx) (imm : Imm), exec (.sw rs rt imm) s = .next t → t.halt = none →
    wordIndex t.pc = wordIndex (dataAddress s rs imm) →
    fetch t = .ok (regRead s.x rt) ∧
    (regRead s.x rt = 0#32 → step t = .next { t with halt := some .fetchZero })
end

