-- ==== Sys2Proof/Laws/Encoding.lean ====
section
/-! SUPPORT. The fields of an encoded word (spec/30_encoding.md R61, R62), one lemma per field per format. -/

namespace Sys2Proof

section
variable (op : Opcode) (rs rt rd : RegIdx) (shamt : Shamt) (funct : Funct) (imm : Imm) (target : Target)

/-- Bits of a number written as `op` above `target`. -/
theorem encodeJ_toNat : (encodeJ op target).toNat = op.toNat * 2 ^ 26 + target.toNat := by
  have := target.isLt
  simp only [encodeJ, BitVec.toNat_append, Nat.shiftLeft_eq]
  rw [mul_comm, Nat.two_pow_add_eq_or_of_lt this, mul_comm]

theorem encodeI_toNat :
    (encodeI op rs rt imm).toNat = ((op.toNat * 2 ^ 5 + rs.toNat) * 2 ^ 5 + rt.toNat) * 2 ^ 16 + imm.toNat := by
  simp only [encodeI, BitVec.toNat_append, Nat.shiftLeft_eq]
  rw [mul_comm _ (2 ^ 16), ← Nat.two_pow_add_eq_or_of_lt imm.isLt, mul_comm _ (2 ^ 5),
    ← Nat.two_pow_add_eq_or_of_lt rt.isLt, mul_comm _ (2 ^ 5), ← Nat.two_pow_add_eq_or_of_lt rs.isLt]
  ring

theorem encodeR_toNat :
    (encodeR rs rt rd shamt funct).toNat =
      (((rs.toNat * 2 ^ 5 + rt.toNat) * 2 ^ 5 + rd.toNat) * 2 ^ 5 + shamt.toNat) * 2 ^ 6 + funct.toNat := by
  simp only [encodeR, BitVec.toNat_append, Nat.shiftLeft_eq]
  rw [mul_comm _ (2 ^ 6), ← Nat.two_pow_add_eq_or_of_lt funct.isLt, mul_comm _ (2 ^ 5),
    ← Nat.two_pow_add_eq_or_of_lt shamt.isLt, mul_comm _ (2 ^ 5), ← Nat.two_pow_add_eq_or_of_lt rd.isLt,
    mul_comm _ (2 ^ 5), ← Nat.two_pow_add_eq_or_of_lt rt.isLt, mul_comm _ (2 ^ 5),
    ← Nat.two_pow_add_eq_or_of_lt rs.isLt]
  simp
  ring

/-! ### Fields of the R-format -/

@[simp] theorem opOf_encodeR : opOf (encodeR rs rt rd shamt funct) = 0x00#6 := by
  apply BitVec.eq_of_toNat_eq
  have := rs.isLt
  have := rt.isLt
  have := rd.isLt
  have := shamt.isLt
  have := funct.isLt
  simp only [opOf, BitVec.extractLsb'_toNat, encodeR_toNat, Nat.shiftRight_eq_div_pow, BitVec.toNat_zero]
  omega

@[simp] theorem rsOf_encodeR : rsOf (encodeR rs rt rd shamt funct) = rs := by
  apply BitVec.eq_of_toNat_eq
  have := rs.isLt
  have := rt.isLt
  have := rd.isLt
  have := shamt.isLt
  have := funct.isLt
  simp only [rsOf, BitVec.extractLsb'_toNat, encodeR_toNat, Nat.shiftRight_eq_div_pow]
  omega

@[simp] theorem rtOf_encodeR : rtOf (encodeR rs rt rd shamt funct) = rt := by
  apply BitVec.eq_of_toNat_eq
  have := rs.isLt
  have := rt.isLt
  have := rd.isLt
  have := shamt.isLt
  have := funct.isLt
  simp only [rtOf, BitVec.extractLsb'_toNat, encodeR_toNat, Nat.shiftRight_eq_div_pow]
  omega

@[simp] theorem rdOf_encodeR : rdOf (encodeR rs rt rd shamt funct) = rd := by
  apply BitVec.eq_of_toNat_eq
  have := rs.isLt
  have := rt.isLt
  have := rd.isLt
  have := shamt.isLt
  have := funct.isLt
  simp only [rdOf, BitVec.extractLsb'_toNat, encodeR_toNat, Nat.shiftRight_eq_div_pow]
  omega

@[simp] theorem shamtOf_encodeR : shamtOf (encodeR rs rt rd shamt funct) = shamt := by
  apply BitVec.eq_of_toNat_eq
  have := rs.isLt
  have := rt.isLt
  have := rd.isLt
  have := shamt.isLt
  have := funct.isLt
  simp only [shamtOf, BitVec.extractLsb'_toNat, encodeR_toNat, Nat.shiftRight_eq_div_pow]
  omega

@[simp] theorem functOf_encodeR : functOf (encodeR rs rt rd shamt funct) = funct := by
  apply BitVec.eq_of_toNat_eq
  have := rs.isLt
  have := rt.isLt
  have := rd.isLt
  have := shamt.isLt
  have := funct.isLt
  simp only [functOf, BitVec.extractLsb'_toNat, encodeR_toNat, Nat.shiftRight_eq_div_pow]
  omega


/-! ### Fields of the I-format -/

@[simp] theorem opOf_encodeI : opOf (encodeI op rs rt imm) = op := by
  apply BitVec.eq_of_toNat_eq
  have := op.isLt
  have := rs.isLt
  have := rt.isLt
  have := imm.isLt
  simp only [opOf, BitVec.extractLsb'_toNat, encodeI_toNat, Nat.shiftRight_eq_div_pow]
  omega

@[simp] theorem rsOf_encodeI : rsOf (encodeI op rs rt imm) = rs := by
  apply BitVec.eq_of_toNat_eq
  have := op.isLt
  have := rs.isLt
  have := rt.isLt
  have := imm.isLt
  simp only [rsOf, BitVec.extractLsb'_toNat, encodeI_toNat, Nat.shiftRight_eq_div_pow]
  omega

@[simp] theorem rtOf_encodeI : rtOf (encodeI op rs rt imm) = rt := by
  apply BitVec.eq_of_toNat_eq
  have := op.isLt
  have := rs.isLt
  have := rt.isLt
  have := imm.isLt
  simp only [rtOf, BitVec.extractLsb'_toNat, encodeI_toNat, Nat.shiftRight_eq_div_pow]
  omega

@[simp] theorem immOf_encodeI : immOf (encodeI op rs rt imm) = imm := by
  apply BitVec.eq_of_toNat_eq
  have := op.isLt
  have := rs.isLt
  have := rt.isLt
  have := imm.isLt
  simp only [immOf, BitVec.extractLsb'_toNat, encodeI_toNat, Nat.shiftRight_eq_div_pow]
  omega

@[simp] theorem functOf_encodeI : functOf (encodeI op rs rt imm) = imm.extractLsb' 0 6 := by
  apply BitVec.eq_of_toNat_eq
  have := op.isLt
  have := rs.isLt
  have := rt.isLt
  have := imm.isLt
  simp only [functOf, BitVec.extractLsb'_toNat, encodeI_toNat, Nat.shiftRight_eq_div_pow]
  omega

@[simp] theorem rdOf_encodeI : rdOf (encodeI op rs rt imm) = imm.extractLsb' 11 5 := by
  apply BitVec.eq_of_toNat_eq
  have := op.isLt
  have := rs.isLt
  have := rt.isLt
  have := imm.isLt
  simp only [rdOf, BitVec.extractLsb'_toNat, encodeI_toNat, Nat.shiftRight_eq_div_pow]
  omega


/-! ### Fields of the J-format -/

@[simp] theorem opOf_encodeJ : opOf (encodeJ op target) = op := by
  apply BitVec.eq_of_toNat_eq
  have := op.isLt
  have := target.isLt
  simp only [opOf, BitVec.extractLsb'_toNat, encodeJ_toNat, Nat.shiftRight_eq_div_pow]
  omega

@[simp] theorem targetOf_encodeJ : targetOf (encodeJ op target) = target := by
  apply BitVec.eq_of_toNat_eq
  have := op.isLt
  have := target.isLt
  simp only [targetOf, BitVec.extractLsb'_toNat, encodeJ_toNat, Nat.shiftRight_eq_div_pow]
  omega

@[simp] theorem rsOf_encodeJ : rsOf (encodeJ op target) = target.extractLsb' 21 5 := by
  apply BitVec.eq_of_toNat_eq
  have := op.isLt
  have := target.isLt
  simp only [rsOf, BitVec.extractLsb'_toNat, encodeJ_toNat, Nat.shiftRight_eq_div_pow]
  omega

@[simp] theorem rtOf_encodeJ : rtOf (encodeJ op target) = target.extractLsb' 16 5 := by
  apply BitVec.eq_of_toNat_eq
  have := op.isLt
  have := target.isLt
  simp only [rtOf, BitVec.extractLsb'_toNat, encodeJ_toNat, Nat.shiftRight_eq_div_pow]
  omega

@[simp] theorem immOf_encodeJ : immOf (encodeJ op target) = target.extractLsb' 0 16 := by
  apply BitVec.eq_of_toNat_eq
  have := op.isLt
  have := target.isLt
  simp only [immOf, BitVec.extractLsb'_toNat, encodeJ_toNat, Nat.shiftRight_eq_div_pow]
  omega

@[simp] theorem functOf_encodeJ : functOf (encodeJ op target) = target.extractLsb' 0 6 := by
  apply BitVec.eq_of_toNat_eq
  have := op.isLt
  have := target.isLt
  simp only [functOf, BitVec.extractLsb'_toNat, encodeJ_toNat, Nat.shiftRight_eq_div_pow]
  omega

end

/-! ### A word is its fields (R62) -/

section
variable (w : Word)

theorem encodeJ_fields : encodeJ (opOf w) (targetOf w) = w := by
  apply BitVec.eq_of_toNat_eq
  have := w.isLt
  simp only [encodeJ_toNat, opOf, targetOf, BitVec.extractLsb'_toNat, Nat.shiftRight_eq_div_pow]
  omega

theorem encodeI_fields : encodeI (opOf w) (rsOf w) (rtOf w) (immOf w) = w := by
  apply BitVec.eq_of_toNat_eq
  have := w.isLt
  simp only [encodeI_toNat, opOf, rsOf, rtOf, immOf, BitVec.extractLsb'_toNat, Nat.shiftRight_eq_div_pow]
  omega

theorem encodeR_fields (h : opOf w = 0x00#6) :
    encodeR (rsOf w) (rtOf w) (rdOf w) (shamtOf w) (functOf w) = w := by
  apply BitVec.eq_of_toNat_eq
  have := w.isLt
  have h' := congrArg BitVec.toNat h
  simp only [opOf, BitVec.extractLsb'_toNat, Nat.shiftRight_eq_div_pow, BitVec.toNat_zero] at h'
  simp only [encodeR_toNat, rsOf, rtOf, rdOf, shamtOf, functOf, BitVec.extractLsb'_toNat, Nat.shiftRight_eq_div_pow]
  omega

/-- The low six bits of the immediate and of the target are the function code field (R62). -/
theorem immOf_low : (immOf w).extractLsb' 0 6 = functOf w := by
  apply BitVec.eq_of_toNat_eq
  simp only [immOf, functOf, BitVec.extractLsb'_toNat, Nat.shiftRight_eq_div_pow]
  omega

theorem targetOf_low : (targetOf w).extractLsb' 0 6 = functOf w := by
  apply BitVec.eq_of_toNat_eq
  simp only [targetOf, functOf, BitVec.extractLsb'_toNat, Nat.shiftRight_eq_div_pow]
  omega
end

end Sys2Proof
end

