-- ==== Sys2Proof/Laws/State.lean ====
section
/-! SUPPORT. One lemma per field per update of State. -/

namespace Sys2Proof.Machine

section
variable (s : State) (pc : Word) (x : Regs) (m : Memory) (cause : HaltCause)

@[simp] theorem State.commit_params : (s.commit pc x m).params = s.params := rfl
@[simp] theorem State.commit_pc : (s.commit pc x m).pc = pc := rfl
@[simp] theorem State.commit_x : (s.commit pc x m).x = x := rfl
@[simp] theorem State.commit_mem : (s.commit pc x m).mem = m := rfl
@[simp] theorem State.commit_halt : (s.commit pc x m).halt = none := rfl

@[simp] theorem State.markHalt_params : (s.markHalt cause).params = s.params := rfl
@[simp] theorem State.markHalt_pc : (s.markHalt cause).pc = s.pc := rfl
@[simp] theorem State.markHalt_x : (s.markHalt cause).x = s.x := rfl
@[simp] theorem State.markHalt_mem : (s.markHalt cause).mem = s.mem := rfl
@[simp] theorem State.markHalt_halt : (s.markHalt cause).halt = some cause := rfl

@[simp] theorem State.markHalt_markHalt (c : HaltCause) : (s.markHalt c).markHalt cause = s.markHalt cause := rfl

@[simp] theorem State.commit_markHalt : (s.markHalt cause).commit pc x m = s.commit pc x m := rfl
end

/-! ### Registers (R22, R115, R116) -/

@[simp] theorem regRead_regSet_same (x : Regs) (r : RegIdx) (v : Word) : regRead (regSet x r v) r = v := by
  simp [regRead, regSet]

theorem regRead_regSet_ne (x : Regs) {r q : RegIdx} (v : Word) (h : q ≠ r) :
    regRead (regSet x r v) q = regRead x q := by
  have hne : r.toNat ≠ q.toNat := fun e => h (BitVec.eq_of_toNat_eq e.symm)
  simp [regRead, regSet, hne]

@[simp] theorem regWrite_true (x : Regs) (r : RegIdx) (v : Word) : regWrite x r v true = regSet x r v := rfl

@[simp] theorem regWrite_false (x : Regs) (r : RegIdx) (v : Word) : regWrite x r v false = x := rfl

/-- A register file is determined by its 32 reads. -/
theorem regs_ext {x y : Regs} (h : ∀ r, regRead x r = regRead y r) : x = y := by
  apply Vector.ext
  intro i hi
  have := h (BitVec.ofNat 5 i)
  simpa [regRead, Nat.mod_eq_of_lt hi] using this

end Sys2Proof.Machine
end

