-- ==== Sys2Proof/Laws/Memory.lean ====
section
/-! SUPPORT. Laws of memory: bytes, words, the canonical form and the bound of the array (spec/20_memory.md). None of
the read laws needs the canonical form. -/

namespace Sys2Proof.Machine

/-! ### Bytes -/

theorem Memory.readByte_erase_ne (m : Memory) {a b : Nat} (h : b ≠ a) :
    Memory.readByte (Memory.erase m a) b = Memory.readByte m b := by
  induction m with
  | nil => rfl
  | cons c m ih =>
    by_cases hc : c.1 = a
    · have hb : ¬ c.1 = b := fun e => h (e.symm.trans hc)
      have he : Memory.erase (c :: m) a = Memory.erase m a := by simp [Memory.erase, hc]
      rw [he, ih, Memory.readByte, if_neg hb]
    · have he : Memory.erase (c :: m) a = c :: Memory.erase m a := by simp [Memory.erase, hc]
      rw [he, Memory.readByte, Memory.readByte, ih]

theorem Memory.readByte_of_not_listed (m : Memory) {a : Nat} (h : ∀ c ∈ m, c.1 ≠ a) :
    Memory.readByte m a = Config.unlistedByte := by
  induction m with
  | nil => rfl
  | cons c m ih =>
    rw [Memory.readByte, if_neg (h c (by simp)), ih (fun d hd => h d (by simp [hd]))]

theorem Memory.mem_erase {m : Memory} {a : Nat} {c : Host.Cell} :
    c ∈ Memory.erase m a ↔ c ∈ m ∧ c.1 ≠ a := by
  simp [Memory.erase]

theorem Memory.readByte_insert_same (m : Memory) (a : Nat) (v : Byte) (h : ∀ c ∈ m, c.1 ≠ a) :
    Memory.readByte (Memory.insert a v m) a = v := by
  induction m with
  | nil => simp [Memory.insert, Memory.readByte]
  | cons c m ih =>
    rw [Memory.insert]
    split
    · simp [Memory.readByte]
    · rw [Memory.readByte, if_neg (h c (by simp)), ih (fun d hd => h d (by simp [hd]))]

theorem Memory.readByte_insert_ne (m : Memory) {a b : Nat} (v : Byte) (h : b ≠ a) :
    Memory.readByte (Memory.insert a v m) b = Memory.readByte m b := by
  induction m with
  | nil => simp [Memory.insert, Memory.readByte, Ne.symm h]
  | cons c m ih =>
    rw [Memory.insert]
    split
    · simp [Memory.readByte, Ne.symm h]
    · rw [Memory.readByte, Memory.readByte, ih]

@[simp] theorem Memory.readByte_writeByte_same (m : Memory) (a : Nat) (v : Byte) :
    Memory.readByte (Memory.writeByte m a v) a = v := by
  rw [Memory.writeByte]
  split
  · next hv => rw [Memory.readByte_of_not_listed _ (fun c hc => (Memory.mem_erase.1 hc).2), hv]
  · exact Memory.readByte_insert_same _ _ _ (fun c hc => (Memory.mem_erase.1 hc).2)

theorem Memory.readByte_writeByte_ne (m : Memory) {a b : Nat} (v : Byte) (h : b ≠ a) :
    Memory.readByte (Memory.writeByte m a v) b = Memory.readByte m b := by
  rw [Memory.writeByte]
  split
  · exact Memory.readByte_erase_ne m h
  · rw [Memory.readByte_insert_ne _ _ h, Memory.readByte_erase_ne m h]

/-! ### The canonical form and the bound of the array -/

theorem Memory.mem_insert {m : Memory} {a : Nat} {v : Byte} {c : Host.Cell} :
    c ∈ Memory.insert a v m ↔ c = (a, v) ∨ c ∈ m := by
  induction m with
  | nil => simp [Memory.insert]
  | cons d m ih =>
    rw [Memory.insert]
    split
    · simp
    · simp only [List.mem_cons, ih]; tauto

theorem Memory.pairwise_insert {m : Memory} {a : Nat} (v : Byte) (hm : m.Pairwise (fun c d => c.1 < d.1))
    (h : ∀ c ∈ m, c.1 ≠ a) : (Memory.insert a v m).Pairwise (fun c d => c.1 < d.1) := by
  induction m with
  | nil => simp [Memory.insert]
  | cons c m ih =>
    rw [List.pairwise_cons] at hm
    rw [Memory.insert]
    split
    · next hlt =>
      refine List.pairwise_cons.2 ⟨fun d hd => ?_, List.pairwise_cons.2 hm⟩
      rcases List.mem_cons.1 hd with rfl | hd
      · exact hlt
      · exact lt_trans hlt (hm.1 d hd)
    · next hlt =>
      refine List.pairwise_cons.2 ⟨fun d hd => ?_, ih hm.2 (fun d hd => h d (by simp [hd]))⟩
      have hca : c.1 ≠ a := h c (by simp)
      rcases Memory.mem_insert.1 hd with rfl | hd
      · simp only; omega
      · exact hm.1 d hd

theorem Memory.wf_erase {m : Memory} (hm : m.wf) (a : Nat) : (Memory.erase m a).wf :=
  ⟨hm.1.filter _, fun c hc => hm.2 c (Memory.mem_erase.1 hc).1⟩

/-- Every write of a byte keeps the canonical form. -/
theorem Memory.wf_writeByte {m : Memory} (hm : m.wf) (a : Nat) (v : Byte) : (Memory.writeByte m a v).wf := by
  rw [Memory.writeByte]
  split
  · exact Memory.wf_erase hm a
  · next hv =>
    refine ⟨Memory.pairwise_insert v (Memory.wf_erase hm a).1 (fun c hc => (Memory.mem_erase.1 hc).2), ?_⟩
    intro c hc
    rcases Memory.mem_insert.1 hc with rfl | hc
    · exact hv
    · exact (Memory.wf_erase hm a).2 c hc

theorem Memory.bound_writeByte {m : Memory} {n : Nat} (hm : ∀ c ∈ m, c.1 < n) {a : Nat} (v : Byte) (ha : a < n) :
    ∀ c ∈ Memory.writeByte m a v, c.1 < n := by
  intro c hc
  rw [Memory.writeByte] at hc
  split at hc
  · exact hm c (Memory.mem_erase.1 hc).1
  · rcases Memory.mem_insert.1 hc with rfl | hc
    · exact ha
    · exact hm c (Memory.mem_erase.1 hc).1

/-- Every write of a word keeps the canonical form. -/
theorem Memory.wf_writeWord {m : Memory} (hm : m.wf) (k : Nat) (v : Word) : (Memory.writeWord m k v).wf :=
  Memory.wf_writeByte (Memory.wf_writeByte (Memory.wf_writeByte (Memory.wf_writeByte hm _ _) _ _) _ _) _ _

/-- Every write of a word of the array keeps the cells inside the array. -/
theorem Memory.bound_writeWord {m : Memory} {n k : Nat} (hm : ∀ c ∈ m, c.1 < 4 * n) (v : Word) (hk : k < n) :
    ∀ c ∈ Memory.writeWord m k v, c.1 < 4 * n := by
  have h (i : Nat) (hi : i < 4) : 4 * k + i < 4 * n := by omega
  exact Memory.bound_writeByte (Memory.bound_writeByte (Memory.bound_writeByte (Memory.bound_writeByte hm _ (h 0 (by omega)))
    _ (h 1 (by omega))) _ (h 2 (by omega))) _ (h 3 (by omega))

/-- Two canonical memories with the same bytes are the same list. -/
theorem Memory.ext_of_wf {m n : Memory} (hm : m.wf) (hn : n.wf) (h : ∀ a, m.readByte a = n.readByte a) : m = n := by
  induction m generalizing n with
  | nil =>
    cases n with
    | nil => rfl
    | cons c n =>
      have := h c.1
      simp only [Memory.readByte, if_true] at this
      exact absurd this.symm (hn.2 c (by simp))
  | cons c m ih =>
    have hrest {c : Host.Cell} {m : Memory} (h : (c :: m).Pairwise (fun a b => a.1 < b.1)) :
        ∀ a, a ≤ c.1 → Memory.readByte m a = Config.unlistedByte := fun a ha =>
      Memory.readByte_of_not_listed m fun d hd => by
        have := (List.pairwise_cons.1 h).1 d hd; omega
    cases n with
    | nil =>
      have := h c.1
      simp only [Memory.readByte, if_true] at this
      exact absurd this (hm.2 c (by simp))
    | cons d n =>
      have hc := h c.1
      have hd := h d.1
      simp only [Memory.readByte, if_true] at hc hd
      have hcd : c.1 = d.1 := by
        rcases Nat.lt_trichotomy c.1 d.1 with hlt | he | hlt
        · rw [if_neg (by omega), hrest hn.1 _ (by omega)] at hc
          exact absurd hc (hm.2 c (by simp))
        · exact he
        · rw [if_neg (by omega), hrest hm.1 _ (by omega)] at hd
          exact absurd hd.symm (hn.2 d (by simp))
      have hv : c.2 = d.2 := by rw [if_pos hcd.symm] at hc; exact hc
      have hce : c = d := Prod.ext hcd hv
      subst hce
      congr 1
      refine ih ⟨(List.pairwise_cons.1 hm.1).2, fun e he => hm.2 e (by simp [he])⟩
        ⟨(List.pairwise_cons.1 hn.1).2, fun e he => hn.2 e (by simp [he])⟩ fun a => ?_
      by_cases ha : a ≤ c.1
      · rw [hrest hm.1 a ha, hrest hn.1 a ha]
      · have := h a
        simpa only [Memory.readByte, if_neg (show ¬ c.1 = a by omega)] using this

/-! ### Words -/

/-- A word taken apart into its bytes and put together again (R42). -/
@[simp] theorem wordOfBytes_byteOfWord (w : Word) :
    wordOfBytes (byteOfWord w 0) (byteOfWord w 1) (byteOfWord w 2) (byteOfWord w 3) = w := by
  apply BitVec.eq_of_toNat_eq
  have := w.isLt
  simp only [wordOfBytes, byteOfWord, BitVec.toNat_append, BitVec.extractLsb'_toNat, Nat.shiftLeft_eq,
    Nat.shiftRight_eq_div_pow]
  rw [mul_comm _ (2 ^ 8), ← Nat.two_pow_add_eq_or_of_lt (by omega), mul_comm _ (2 ^ 8),
    ← Nat.two_pow_add_eq_or_of_lt (by omega), mul_comm _ (2 ^ 8), ← Nat.two_pow_add_eq_or_of_lt (by omega)]
  omega

theorem wordIndex_eq_div (a : Word) : wordIndex a = a.toNat / 4 := by
  simp [wordIndex, BitVec.toNat_ushiftRight, Nat.shiftRight_eq_div_pow]

/-- The word index as the port view writes it, bits [31:2] (R146). -/
theorem extractLsb'_toNat_eq_wordIndex (a : Word) : (a.extractLsb' 2 30).toNat = wordIndex a := by
  rw [wordIndex_eq_div, BitVec.extractLsb'_toNat, Nat.shiftRight_eq_div_pow]
  have := a.isLt
  omega

/-- A write of word `k` leaves every byte outside its four bytes (R44). -/
theorem Memory.readByte_writeWord_ne (m : Memory) {k a : Nat} (v : Word) (h : a / 4 ≠ k) :
    Memory.readByte (Memory.writeWord m k v) a = Memory.readByte m a := by
  rw [Memory.writeWord, Memory.readByte_writeByte_ne _ _ (by omega), Memory.readByte_writeByte_ne _ _ (by omega),
    Memory.readByte_writeByte_ne _ _ (by omega), Memory.readByte_writeByte_ne _ _ (by omega)]

/-- A read of the word just written (R44, R52). -/
@[simp] theorem Memory.readWord_writeWord_same (m : Memory) (k : Nat) (v : Word) :
    Memory.readWord (Memory.writeWord m k v) k = v := by
  have h0 : Memory.readByte (Memory.writeWord m k v) (4 * k) = byteOfWord v 0 := by
    rw [Memory.writeWord, Memory.readByte_writeByte_ne _ _ (by omega), Memory.readByte_writeByte_ne _ _ (by omega),
      Memory.readByte_writeByte_ne _ _ (by omega), Memory.readByte_writeByte_same]
  have h1 : Memory.readByte (Memory.writeWord m k v) (4 * k + 1) = byteOfWord v 1 := by
    rw [Memory.writeWord, Memory.readByte_writeByte_ne _ _ (by omega), Memory.readByte_writeByte_ne _ _ (by omega),
      Memory.readByte_writeByte_same]
  have h2 : Memory.readByte (Memory.writeWord m k v) (4 * k + 2) = byteOfWord v 2 := by
    rw [Memory.writeWord, Memory.readByte_writeByte_ne _ _ (by omega), Memory.readByte_writeByte_same]
  have h3 : Memory.readByte (Memory.writeWord m k v) (4 * k + 3) = byteOfWord v 3 := by
    rw [Memory.writeWord, Memory.readByte_writeByte_same]
  rw [Memory.readWord, h0, h1, h2, h3, wordOfBytes_byteOfWord]

/-- A read of another word (R44: "No other word changes"). -/
theorem Memory.readWord_writeWord_ne (m : Memory) {k l : Nat} (v : Word) (h : l ≠ k) :
    Memory.readWord (Memory.writeWord m k v) l = Memory.readWord m l := by
  simp only [Memory.readWord]
  rw [Memory.readByte_writeWord_ne _ _ (by omega), Memory.readByte_writeWord_ne _ _ (by omega),
    Memory.readByte_writeWord_ne _ _ (by omega), Memory.readByte_writeWord_ne _ _ (by omega)]

end Sys2Proof.Machine
end

