-- ==== Sys2Proof/Laws/Cycle.lean ====
section
/-! SUPPORT. What each shared operation of a cycle can do, said once (spec/40_datapath.md). -/

namespace Sys2Proof.Machine

/-! ### ALU (R100 to R108) -/

section
variable (a b : Word)
@[simp] theorem aluResult_add : aluResult a b 0#3 = a + b := rfl
@[simp] theorem aluResult_sub : aluResult a b 1#3 = a - b := rfl
@[simp] theorem aluResult_slt : aluResult a b 2#3 = boolWord (a.slt b) := rfl
@[simp] theorem aluResult_sltu : aluResult a b 3#3 = boolWord (a.ult b) := rfl
@[simp] theorem aluResult_and : aluResult a b 4#3 = a &&& b := rfl
@[simp] theorem aluResult_or : aluResult a b 5#3 = a ||| b := rfl
@[simp] theorem aluResult_shl16 : aluResult a b 6#3 = b <<< 16 := rfl
@[simp] theorem aluResult_not : aluResult a b 7#3 = ~~~a := rfl
@[simp] theorem alu_result (sel : BitVec 3) : (alu a b sel).result = aluResult a b sel := rfl
@[simp] theorem alu_zero (sel : BitVec 3) : (alu a b sel).zero = zeroFlag (aluResult a b sel) := rfl

/-- The zero flag of a difference is equality of the operands (R102). -/
@[simp] theorem zeroFlag_sub : zeroFlag (a - b) = (a == b) := by
  have h : a - b = 0#32 ↔ a = b := sub_eq_zero (G := BitVec 32)
  rw [Bool.eq_iff_iff]
  simp only [zeroFlag, beq_iff_eq]
  exact h
end

/-! ### Stages -/

/-- A 3-bit selector never fails the test of R124. -/
@[simp] theorem aluDispatch_eq (ctl : Ctl) (rd1 rd2 ext : Word) :
    aluDispatch ctl rd1 rd2 ext = .ok (alu rd1 (operandB ctl rd2 ext) ctl.aluOp) := by
  have := ctl.aluOp.isLt
  rw [aluDispatch, if_neg (by omega)]

/-- Everything a memory stage that succeeds can have done (R125). -/
theorem memoryStage_ok {p : Params} {ctl : Ctl} {m : Memory} {addr rd2 : Word} {mo : MemOut}
    (h : memoryStage p ctl m addr rd2 = .ok mo) :
    (ctl.memWrite = false ∧ mo.mem = m) ∨
      (ctl.memWrite = true ∧ wordIndex addr < p.memWords ∧ mo.mem = m.writeWord (wordIndex addr) rd2) := by
  rw [memoryStage] at h
  split at h
  · cases h
  split at h
  · cases h
  split at h
  · cases h
  next m' hm =>
    cases h
    cases hw : ctl.memWrite
    · simp only [hw, Bool.false_eq_true, if_false] at hm
      cases hm; exact .inl ⟨rfl, rfl⟩
    · simp only [hw, if_true, memWrite] at hm
      split at hm
      · cases hm
      · next hk => cases hm; exact .inr ⟨rfl, Nat.lt_of_not_le hk, rfl⟩

/-! ### The orchestrator on one row -/

/-- No row reads and writes memory in one cycle (R81, R127). -/
theorem romCtl_not_both (p : Params) (row : RomRow) :
    ¬((romCtl p row).memRead = true ∧ (romCtl p row).memWrite = true) := by
  cases row <;> simp [romCtl]

/-- The ALU's outputs in a cycle of a row (R115, R110, R123). -/
def rowAlu (row : RomRow) (f : Fields) (s : State) : AluOut :=
  alu (regRead s.x f.rs) (operandB (romCtl s.params row) (regRead s.x f.rt) (sext32 f.imm)) (romCtl s.params row).aluOp

/-- The word read in a cycle of a row, 0 without a read (R125, R127). -/
def rowMemdata (row : RomRow) (f : Fields) (s : State) : Word :=
  if (romCtl s.params row).memRead then s.mem.readWord (wordIndex (rowAlu row f s).result) else 0#32

/-- The memory after a cycle of a row that completes (R125). -/
def rowMem (row : RomRow) (f : Fields) (s : State) : Memory :=
  if (romCtl s.params row).memWrite then s.mem.writeWord (wordIndex (rowAlu row f s).result) (regRead s.x f.rt) else s.mem

/-- The state after a cycle of a row that completes (R141). -/
def rowNext (row : RomRow) (f : Fields) (s : State) : State :=
  s.commit (pcUpdate s.pc f.target (sext32 f.imm) (romCtl s.params row) (rowAlu row f s).zero)
    (writeback (romCtl s.params row) f s.x (rowMemdata row f s) (rowAlu row f s).result) (rowMem row f s)

/-- The halt-index test of a row's cycle succeeds (R126). -/
abbrev rowHalts (row : RomRow) (f : Fields) (s : State) : Prop :=
  haltTestApplies s.params (romCtl s.params row) = true ∧ wordIndex (rowAlu row f s).result = s.params.haltIndex

/-- The data access of a row's cycle is outside the array (R49). -/
abbrev rowFaults (row : RomRow) (f : Fields) (s : State) : Prop :=
  ((romCtl s.params row).memRead || (romCtl s.params row).memWrite) = true ∧
    s.params.memWords ≤ wordIndex (rowAlu row f s).result

/-- Everything a cycle of a ROM row does: the halt-index test, then the fault, else the row's next state (R140). -/
theorem runRow_eq (row : RomRow) (f : Fields) (s : State) :
    runRow row f s =
      if rowHalts row f s then .next (s.markHalt .haltAddress)
      else if rowFaults row f s then .fault (.memOutOfRange (rowAlu row f s).result)
      else .next (rowNext row f s) := by
  have hout : aluDispatch (romCtl s.params row) (regRead s.x f.rs) (regRead s.x f.rt) (sext32 f.imm) =
      .ok (rowAlu row f s) := aluDispatch_eq ..
  simp only [runRow, runStages, hout]
  by_cases hh : rowHalts row f s
  · have hm : memoryStage s.params (romCtl s.params row) s.mem (rowAlu row f s).result (regRead s.x f.rt) =
        .error (.halt .haltAddress) := if_pos hh
    rw [if_pos hh, hm]; rfl
  · rw [if_neg hh]
    simp only [memoryStage, if_neg hh]
    rcases Bool.eq_false_or_eq_true (romCtl s.params row).memRead with hr | hr <;>
      rcases Bool.eq_false_or_eq_true (romCtl s.params row).memWrite with hw | hw
    · exact (romCtl_not_both _ _ ⟨hr, hw⟩).elim
    · by_cases hk : s.params.memWords ≤ wordIndex (rowAlu row f s).result
      · simp [rowFaults, memRead, hr, hw, hk, takeStop]
      · simp [rowFaults, rowNext, rowMemdata, rowMem, memRead, hr, hw, hk]
    · by_cases hk : s.params.memWords ≤ wordIndex (rowAlu row f s).result
      · simp [rowFaults, memWrite, hr, hw, hk, takeStop]
      · simp [rowFaults, rowNext, rowMemdata, rowMem, memWrite, hr, hw, hk]
    · simp [rowFaults, rowNext, rowMemdata, rowMem, hr, hw]

/-- A cycle of a ROM row that answers a next state halted, for the halt address alone, or completed (R142). -/
theorem runRow_next {row : RomRow} {f : Fields} {s t : State} (h : runRow row f s = .next t) :
    (rowHalts row f s ∧ t = s.markHalt .haltAddress) ∨
      (¬rowHalts row f s ∧ ¬rowFaults row f s ∧ t = rowNext row f s) := by
  rw [runRow_eq] at h
  split at h
  · next hh => cases h; exact .inl ⟨hh, rfl⟩
  · next hh =>
    split at h
    · cases h
    · next hf => cases h; exact .inr ⟨hh, hf, rfl⟩

/-! ### Fetch and step (R46, R120) -/

theorem fetch_ok {s : State} (h : wordIndex s.pc < s.params.memWords) :
    fetch s = .ok (s.mem.readWord (wordIndex s.pc)) := by
  rw [fetch, if_neg (Nat.not_le.2 h)]

theorem step_fetched {s : State} (h : wordIndex s.pc < s.params.memWords) :
    step s = exec (decodeWord s.params (s.mem.readWord (wordIndex s.pc))) s := by
  rw [step, fetch_ok h]

/-- The bytes of the fetch decode to what the fetched word decodes to (R42, R60). -/
theorem decodeBytes_fetchBytes (p : Params) (s : State) :
    decodeBytes p (fetchBytes s) = .ok (decodeWord p (s.mem.readWord (wordIndex s.pc)), []) := rfl

theorem decodeBytes_bytesOfWord (p : Params) (w : Word) (rest : List Byte) :
    decodeBytes p (bytesOfWord w ++ rest) = .ok (decodeWord p w, rest) := by
  simp [bytesOfWord, decodeBytes]

/-- The host's word, placed at the fetch, is the word fetched (log 8). -/
theorem fetch_withFetchWord {s : State} (h : wordIndex s.pc < s.params.memWords) (nbits w : Nat) :
    fetch (s.withFetchWord nbits w) = .ok (BitVec.ofNat 32 (w % 2 ^ nbits)) := by
  rw [State.withFetchWord, if_neg (Nat.not_le.2 h), fetch, if_neg (Nat.not_le.2 h)]
  exact congrArg _ (Memory.readWord_writeWord_same _ _ _)

/-! ### Shifts and values (R107, R130) -/

theorem shiftLeft_two (a : Word) : a <<< 2 = a * 4#32 := by
  apply BitVec.eq_of_toNat_eq
  simp [Nat.shiftLeft_eq]

/-- The absolute jump target as a number (R132). -/
theorem jumpTarget_toNat (target : Target) : (jumpTarget target).toNat = 4 * target.toNat := by
  have := target.isLt
  simp [jumpTarget, Nat.shiftLeft_eq]
  omega

/-- A compare's result has word index 0 (R153, R154). -/
@[simp] theorem wordIndex_boolWord (b : Bool) : wordIndex (boolWord b) = 0 := by cases b <;> rfl

/-- The sign-extended upper half is shifted out (R107, R155). -/
theorem sext32_shiftLeft_16 (imm : Imm) : sext32 imm <<< 16 = imm ++ 0x0000#16 := by
  apply BitVec.eq_of_getLsbD_eq
  intro i hi
  simp only [sext32, BitVec.getLsbD_shiftLeft, BitVec.getLsbD_append, BitVec.getLsbD_signExtend, hi, decide_true,
    Bool.true_and]
  by_cases h : i < 16
  · simp [h]
  · have h1 : i - 16 < 32 := by omega
    have h2 : i - 16 < 16 := by omega
    simp [h, h1, h2]

/-! ### The program counter (R26) -/

theorem aligned_add_four {a : Word} (h : a.extractLsb' 0 2 = 0#2) : (a + 4#32).extractLsb' 0 2 = 0#2 := by
  have h' := congrArg BitVec.toNat h
  apply BitVec.eq_of_toNat_eq
  simp only [BitVec.extractLsb'_toNat, Nat.shiftRight_eq_div_pow, BitVec.toNat_add, BitVec.toNat_ofNat] at *
  omega

theorem aligned_add_shift {a : Word} (h : a.extractLsb' 0 2 = 0#2) (b : Word) :
    (a + (b <<< 2)).extractLsb' 0 2 = 0#2 := by
  have h' := congrArg BitVec.toNat h
  apply BitVec.eq_of_toNat_eq
  simp only [BitVec.extractLsb'_toNat, Nat.shiftRight_eq_div_pow, BitVec.toNat_add, BitVec.toNat_ofNat,
    BitVec.toNat_shiftLeft, Nat.shiftLeft_eq] at *
  omega

theorem aligned_shift (b : Word) : (b <<< 2).extractLsb' 0 2 = 0#2 := by
  apply BitVec.eq_of_toNat_eq
  simp only [BitVec.extractLsb'_toNat, Nat.shiftRight_eq_div_pow, BitVec.toNat_ofNat, BitVec.toNat_shiftLeft,
    Nat.shiftLeft_eq]
  omega

/-- Every next PC of an aligned PC is aligned (R26, R130). -/
theorem pcUpdate_aligned {pc : Word} (h : pc.extractLsb' 0 2 = 0#2) (target : Target) (ext : Word) (ctl : Ctl)
    (zero : Bool) : (pcUpdate pc target ext ctl zero).extractLsb' 0 2 = 0#2 := by
  rw [pcUpdate]
  split
  · exact aligned_add_four (aligned_add_shift h ext)
  · split
    · exact aligned_shift _
    · exact aligned_add_four h

end Sys2Proof.Machine
end

