-- ==== Sys2Proof/Laws/Decode.lean ====
section
/-! SUPPORT. The decoder by cases of the word (spec/30_encoding.md R70 to R72, R82, R86): the sentinel, opcode 0, a
rewritten word, a colliding opcode, and every other word. -/

namespace Sys2Proof

/-! ### Effective opcodes -/

theorem setWidth7_inj {a b : Opcode} : a.setWidth 7 = b.setWidth 7 ↔ a = b := by
  refine ⟨fun h => BitVec.eq_of_toNat_eq ?_, fun h => h ▸ rfl⟩
  have := congrArg BitVec.toNat h
  have h1 := a.isLt
  have h2 := b.isLt
  simp only [BitVec.toNat_setWidth] at this
  omega

theorem setWidth7_eq {a : Opcode} {b : Eop} (c : Opcode) (h : b = c.setWidth 7) : a.setWidth 7 = b ↔ a = c := by
  subst h; exact setWidth7_inj

theorem map_setWidth7 {o : Option Opcode} {b : Opcode} :
    o.map (BitVec.setWidth 7) = some (b.setWidth 7) ↔ o = some b := by
  cases o <;> simp [setWidth7_inj]

/-- No primary opcode is the effective opcode of a compare (R70). -/
theorem setWidth7_ne_eop (op : Opcode) : op.setWidth 7 ≠ eopSlt ∧ op.setWidth 7 ≠ eopSltu := by
  have := op.isLt
  constructor <;> intro e <;> have h := congrArg BitVec.toNat e <;> simp [eopSlt, eopSltu] at h <;> omega

theorem resolve_op0 (p : Params) (funct : Funct) :
    resolve p 0x00#6 funct =
      if funct = 0x2A#6 then eopSlt else if funct = 0x2B#6 then eopSltu else 0x00#7 := by
  simp [resolve]

theorem resolve_escapes {p : Params} {op : Opcode} {low : Funct} (h0 : op ≠ 0x00#6)
    (h : escapesRewrite p low = true) : resolve p op low = op.setWidth 7 := by
  simp only [escapesRewrite, isCompareFunct, Bool.or_eq_true, Bool.not_eq_true', Bool.or_eq_false_iff,
    beq_eq_false_iff_ne] at h
  rcases h with h | h
  · simp [resolve, h0, h]
  · simp [resolve, h.1, h.2]

/-- The ROM row of a primary opcode other than 0 with no collision (R81, R82). -/
theorem romRow_primary {p : Params} {op : Opcode} (h0 : op ≠ 0x00#6) (h : escapesCollision p op = true) :
    romRow p (op.setWidth 7) =
      if op = 0x02#6 then some .j
      else if op = 0x04#6 then some .beq
      else if op = 0x08#6 then some .addi
      else if op = 0x0F#6 then some .lui
      else if op = 0x23#6 then some .lw
      else if op = 0x2B#6 then some .sw
      else none := by
  simp only [escapesCollision, Bool.and_eq_true, bne_iff_ne, ne_eq] at h
  simp only [romRow, (setWidth7_ne_eop op).1, (setWidth7_ne_eop op).2, if_false, map_setWidth7, h.1, h.2,
    setWidth7_eq (b := 0x00#7) 0x00#6 rfl, h0, setWidth7_eq (b := 0x02#7) 0x02#6 rfl,
    setWidth7_eq (b := 0x04#7) 0x04#6 rfl, setWidth7_eq (b := 0x08#7) 0x08#6 rfl,
    setWidth7_eq (b := 0x0F#7) 0x0F#6 rfl, setWidth7_eq (b := 0x23#7) 0x23#6 rfl,
    setWidth7_eq (b := 0x2B#7) 0x2B#6 rfl]

/-! ### The decoder, case by case -/

theorem ne_zero_of_opOf {w : Word} (h : opOf w ≠ 0x00#6) : w ≠ 0#32 := by rintro rfl; exact h rfl

theorem ne_zero_of_functOf {w : Word} (h : functOf w ≠ 0x00#6) : w ≠ 0#32 := by rintro rfl; exact h rfl

/-- Words of opcode 0 other than the sentinel (R70, R83). -/
theorem decodeWord_op0 (p : Params) {w : Word} (hw : w ≠ 0#32) (h : opOf w = 0x00#6) :
    decodeWord p w =
      if functOf w = 0x2A#6 then .slt (rsOf w) (rtOf w) (rdOf w) (shamtOf w)
      else if functOf w = 0x2B#6 then .sltu (rsOf w) (rtOf w) (rdOf w) (shamtOf w)
      else .add (rsOf w) (rtOf w) (rdOf w) (shamtOf w) (functOf w) := by
  rw [decodeWord, if_neg hw, h, resolve_op0]
  by_cases h1 : functOf w = 0x2A#6
  · simp only [if_pos h1]; rfl
  · by_cases h2 : functOf w = 0x2B#6
    · simp only [if_neg h1, if_pos h2]; rfl
    · simp only [if_neg h1, if_neg h2]; rfl

/-- Words that the rewrite takes with `ALIAS_REQUIRES_OP0 = false` (R71). -/
theorem decodeWord_rewritten {p : Params} {w : Word} (ha : p.aliasRequiresOp0 = false)
    (h : isCompareFunct (functOf w) = true) :
    decodeWord p w =
      if functOf w = 0x2A#6 then .slt (rsOf w) (rtOf w) (rdOf w) (shamtOf w)
      else .sltu (rsOf w) (rtOf w) (rdOf w) (shamtOf w) := by
  have hw : w ≠ 0#32 := by rintro rfl; revert h; decide
  simp only [isCompareFunct, Bool.or_eq_true, beq_iff_eq] at h
  rw [decodeWord, if_neg hw]
  rcases h with h | h <;> simp [resolve, ha, h, romRow, instrOfRow, eopSlt, eopSltu]

/-- Words whose opcode a collision parameter names (R72). -/
theorem decodeWord_collides {p : Params} {w : Word} (h0 : opOf w ≠ 0x00#6)
    (h : escapesRewrite p (functOf w) = true) (hc : escapesCollision p (opOf w) = false) :
    decodeWord p w =
      if p.aliasCollideSlt = some (opOf w) then .slt (rsOf w) (rtOf w) (rdOf w) (shamtOf w)
      else .sltu (rsOf w) (rtOf w) (rdOf w) (shamtOf w) := by
  rw [decodeWord, if_neg (ne_zero_of_opOf h0), resolve_escapes h0 h]
  simp only [romRow, (setWidth7_ne_eop _).1, (setWidth7_ne_eop _).2, if_false, map_setWidth7,
    setWidth7_eq (b := 0x00#7) 0x00#6 rfl, h0]
  by_cases hs : p.aliasCollideSlt = some (opOf w)
  · simp [hs, instrOfRow]
  · have ht : p.aliasCollideSltu = some (opOf w) := by simpa [escapesCollision, hs] using hc
    simp [hs, ht, instrOfRow]

/-- Every other word: the I- and J-format opcodes, else unsupported (R82, R86). -/
theorem decodeWord_primary {p : Params} {w : Word} (h0 : opOf w ≠ 0x00#6)
    (h : keepsOpcode p (opOf w) (functOf w) = true) :
    decodeWord p w =
      if opOf w = 0x02#6 then .j (targetOf w)
      else if opOf w = 0x04#6 then .beq (rsOf w) (rtOf w) (immOf w)
      else if opOf w = 0x08#6 then .addi (rsOf w) (rtOf w) (immOf w)
      else if opOf w = 0x0F#6 then .lui (rsOf w) (rtOf w) (immOf w)
      else if opOf w = 0x23#6 then .lw (rsOf w) (rtOf w) (immOf w)
      else if opOf w = 0x2B#6 then .sw (rsOf w) (rtOf w) (immOf w)
      else .unsupported w := by
  simp only [keepsOpcode, Bool.and_eq_true] at h
  rw [decodeWord, if_neg (ne_zero_of_opOf h0), resolve_escapes h0 h.1, romRow_primary h0 h.2]
  split_ifs <;> rfl

/-- The five cases cover every word. -/
theorem decode_cases (p : Params) (w : Word) :
    w = 0#32 ∨ (w ≠ 0#32 ∧ opOf w = 0x00#6) ∨
      (opOf w ≠ 0x00#6 ∧ p.aliasRequiresOp0 = false ∧ isCompareFunct (functOf w) = true) ∨
      (opOf w ≠ 0x00#6 ∧ escapesRewrite p (functOf w) = true ∧ escapesCollision p (opOf w) = false) ∨
      (opOf w ≠ 0x00#6 ∧ keepsOpcode p (opOf w) (functOf w) = true) := by
  by_cases h : w = 0#32
  · exact .inl h
  by_cases h0 : opOf w = 0x00#6
  · exact .inr (.inl ⟨h, h0⟩)
  cases hr : escapesRewrite p (functOf w)
  · exact .inr (.inr (.inl ⟨h0, by simpa [escapesRewrite] using hr⟩))
  · cases hc : escapesCollision p (opOf w)
    · exact .inr (.inr (.inr (.inl ⟨h0, rfl, rfl⟩)))
    · exact .inr (.inr (.inr (.inr ⟨h0, by simp [keepsOpcode, hr, hc]⟩)))

end Sys2Proof
end

