-- ==== Sys2Proof/Laws/Launch.lean ====
section
/-! SUPPORT. Laws of loading memory before a run (spec/70_reset_and_hazards.md R222). -/

namespace Sys2Proof.Machine

/-- The alignment test on the low two bits, as a remainder (R221). -/
theorem low_bits_zero_iff (a : Word) : a.extractLsb' 0 2 = 0#2 ↔ a.toNat % 4 = 0 := by
  constructor
  · intro h
    simpa [BitVec.extractLsb'_toNat] using congrArg BitVec.toNat h
  · intro h
    apply BitVec.eq_of_toNat_eq
    simp [BitVec.extractLsb'_toNat, h]

theorem Memory.wf_load {m : Memory} (h : m.wf) (k : Nat) (ws : List Word) : (Memory.load m k ws).wf := by
  induction ws generalizing m k with
  | nil => exact h
  | cons w ws ih => exact ih (Memory.wf_writeWord h _ _) _

theorem Memory.bound_load {m : Memory} {n : Nat} (h : ∀ c ∈ m, c.1 < 4 * n) (k : Nat) (ws : List Word)
    (hk : k + ws.length ≤ n) : ∀ c ∈ Memory.load m k ws, c.1 < 4 * n := by
  induction ws generalizing m k with
  | nil => exact h
  | cons w ws ih =>
    rw [List.length_cons] at hk
    exact ih (Memory.bound_writeWord h _ (by omega)) _ (by omega)

/-- Loading from word `k` up leaves the words below. -/
theorem Memory.readWord_load_below (m : Memory) {k l : Nat} (ws : List Word) (h : l < k) :
    (Memory.load m k ws).readWord l = m.readWord l := by
  induction ws generalizing m k with
  | nil => rfl
  | cons w ws ih => rw [Memory.load, ih _ (by omega), Memory.readWord_writeWord_ne _ _ (by omega)]

/-- Each loaded word reads as loaded. -/
theorem Memory.readWord_load (m : Memory) (k : Nat) {l : Nat} (ws : List Word) (h : l < ws.length) :
    (Memory.load m k ws).readWord (k + l) = ws[l] := by
  induction ws generalizing m k l with
  | nil => simp at h
  | cons w ws ih =>
    rw [Memory.load]
    cases l with
    | zero => simp [Memory.readWord_load_below]
    | succ l =>
      rw [show k + (l + 1) = k + 1 + l by omega, ih _ _ (by simpa using h)]
      simp

/-- Loading leaves the words above the loaded ones. -/
theorem Memory.readWord_load_above (m : Memory) {k l : Nat} (ws : List Word) (h : k + ws.length ≤ l) :
    (Memory.load m k ws).readWord l = m.readWord l := by
  induction ws generalizing m k with
  | nil => rfl
  | cons w ws ih =>
    rw [List.length_cons] at h
    rw [Memory.load, ih _ (by omega), Memory.readWord_writeWord_ne _ _ (by omega)]

end Sys2Proof.Machine
end

