-- ==== Sys2Proof/Laws/PerInstr.lean ====
section
/-! SUPPORT. Facts stated once per constructor of Instr. `OpcodeField`: the opcode field of each encoded instruction is
the number of spec/30_encoding.md R65; an unsupported word keeps its own. -/

namespace Sys2Proof.Laws.OpcodeField

/-- The primary opcode of R65. -/
def number : Instr → Opcode
  | .halt => 0x00#6
  | .slt _ _ _ _ => 0x00#6
  | .sltu _ _ _ _ => 0x00#6
  | .add _ _ _ _ _ => 0x00#6
  | .j _ => 0x02#6
  | .beq _ _ _ => 0x04#6
  | .addi _ _ _ => 0x08#6
  | .lui _ _ _ => 0x0F#6
  | .lw _ _ _ => 0x23#6
  | .sw _ _ _ => 0x2B#6
  | .unsupported word => word.extractLsb' 26 6

def Statement (i : Instr) : Prop := opOf (encode i) = number i

theorem halt : Statement .halt := rfl
theorem slt (rs rt rd shamt) : Statement (.slt rs rt rd shamt) := opOf_encodeR ..
theorem sltu (rs rt rd shamt) : Statement (.sltu rs rt rd shamt) := opOf_encodeR ..
theorem add (rs rt rd shamt funct) : Statement (.add rs rt rd shamt funct) := opOf_encodeR ..
theorem j (target) : Statement (.j target) := opOf_encodeJ ..
theorem beq (rs rt imm) : Statement (.beq rs rt imm) := opOf_encodeI ..
theorem addi (rs rt imm) : Statement (.addi rs rt imm) := opOf_encodeI ..
theorem lui (rs rt imm) : Statement (.lui rs rt imm) := opOf_encodeI ..
theorem lw (rs rt imm) : Statement (.lw rs rt imm) := opOf_encodeI ..
theorem sw (rs rt imm) : Statement (.sw rs rt imm) := opOf_encodeI ..
theorem unsupported (word) : Statement (.unsupported word) := rfl

end Sys2Proof.Laws.OpcodeField
end

