-- ==== Sys2Proof/Laws/Ports.lean ====
section
/-! SUPPORT. What the orchestrator puts out and what the clock edge loads, by the deciding stop signal
(spec/40_datapath.md R145, R146). -/

namespace Sys2Proof.Machine

/-- Every signal is a `halt_*` with a cause or a `fault_*` with a reason, never both (R146). -/
theorem StopSignal.reason_isSome (sig : StopSignal) (pc aluRes : Word) :
    (sig.reason pc aluRes).isSome = !sig.isHalt := by cases sig <;> rfl

/-- No signal decides exactly when none is asserted (R146). -/
theorem StopLines.deciding_eq_none (l : StopLines) :
    l.deciding = none ↔ l.faultFetch = false ∧ l.haltFetch = false ∧ l.haltDecode = false ∧ l.haltAlu = false ∧
      l.haltMem = false ∧ l.faultMem = false := by
  rcases l with ⟨_ | _, _ | _, _ | _, _ | _, _ | _, _ | _⟩ <;> simp [deciding]

theorem orchestrate_halt (l : StopLines) : (orchestrate l).halt = l.deciding.any StopSignal.isHalt := rfl

theorem orchestrate_fault (l : StopLines) : (orchestrate l).fault = l.deciding.any (fun sig => !sig.isHalt) := rfl

/-- `commit` is 1 exactly when no signal decides (R146). -/
theorem orchestrate_commit (l : StopLines) : (orchestrate l).commit = l.deciding.isNone := by
  simp only [orchestrate]
  cases l.deciding with
  | none => rfl
  | some sig => cases sig <;> rfl

/-- ORCH takes in the stop signals of the units. -/
@[simp] theorem ports_orch (u : Undriven) (s : State) : (ports u s).orch = orchestrate (ports u s).stops := rfl

/-- Without `commit` the edge loads no state element, and only the `halt` field differs (R142, R145). -/
theorem edgeState_stopped {q : Ports} (h : q.orch.commit = false) (s : State) :
    edgeState q s = { s with halt := q.stops.deciding.bind StopSignal.cause } := by
  simp [edgeState, h, regWrite]

/-- With `commit` the edge loads every state element under its own enable (R145). -/
theorem edgeState_committed {q : Ports} (h : q.orch.commit = true) (s : State) :
    edgeState q s =
      { s with
        pc := q.nextPc
        x := regWrite s.x q.wa q.wd q.we
        mem := if q.dmemWe then s.mem.writeWord q.dmemIndex.toNat q.dmemWdata else s.mem
        halt := q.stops.deciding.bind StopSignal.cause } := by
  simp [edgeState, h]

end Sys2Proof.Machine
end

