-- ==== Sys2Proof/Laws/Rows.lean ====
section
/-! SUPPORT. The meanings as runs of ROM rows on the fields of a word (spec/30_encoding.md R62, spec/40_datapath.md R140). -/

namespace Sys2Proof.Machine

section
variable (rs rt rd : RegIdx) (shamt : Shamt) (funct : Funct) (imm : Imm) (target : Target)

@[simp] theorem rFormat_rs : (rFormat rs rt rd shamt funct).rs = rs := rsOf_encodeR ..
@[simp] theorem rFormat_rt : (rFormat rs rt rd shamt funct).rt = rt := rtOf_encodeR ..
@[simp] theorem rFormat_rd : (rFormat rs rt rd shamt funct).rd = rd := rdOf_encodeR ..
@[simp] theorem iFormat_rs : (iFormat rs rt imm).rs = rs := rsOf_encodeI ..
@[simp] theorem iFormat_rt : (iFormat rs rt imm).rt = rt := rtOf_encodeI ..
@[simp] theorem iFormat_imm : (iFormat rs rt imm).imm = imm := immOf_encodeI ..
@[simp] theorem jFormat_rs : (jFormat target).rs = target.extractLsb' 21 5 := rsOf_encodeJ ..
@[simp] theorem jFormat_rt : (jFormat target).rt = target.extractLsb' 16 5 := rtOf_encodeJ ..
@[simp] theorem jFormat_imm : (jFormat target).imm = target.extractLsb' 0 16 := immOf_encodeJ ..
@[simp] theorem jFormat_target : (jFormat target).target = target := targetOf_encodeJ ..
end

/-- The register fields and the immediate of a word lie inside its target field (R62, R185). -/
theorem targetOf_rs (w : Word) : (targetOf w).extractLsb' 21 5 = rsOf w := by
  apply BitVec.eq_of_toNat_eq
  simp only [targetOf, rsOf, BitVec.extractLsb'_toNat, Nat.shiftRight_eq_div_pow]
  omega

theorem targetOf_rt (w : Word) : (targetOf w).extractLsb' 16 5 = rtOf w := by
  apply BitVec.eq_of_toNat_eq
  simp only [targetOf, rtOf, BitVec.extractLsb'_toNat, Nat.shiftRight_eq_div_pow]
  omega

theorem targetOf_imm (w : Word) : (targetOf w).extractLsb' 0 16 = immOf w := by
  apply BitVec.eq_of_toNat_eq
  simp only [targetOf, immOf, BitVec.extractLsb'_toNat, Nat.shiftRight_eq_div_pow]
  omega

/-- What a row reads of the fields: the two sources always, and each other field only under the flag that selects it. -/
theorem runRow_congr {row : RomRow} {f g : Fields} {s : State} (hrs : f.rs = g.rs) (hrt : f.rt = g.rt)
    (himm : (romCtl s.params row).aluSrc = true ∨ (romCtl s.params row).branch = true → f.imm = g.imm)
    (hrd : (romCtl s.params row).regDst = true → f.rd = g.rd)
    (htarget : (romCtl s.params row).jump = true → f.target = g.target) : runRow row f s = runRow row g s := by
  have hop : operandB (romCtl s.params row) (regRead s.x g.rt) (sext32 f.imm) =
      operandB (romCtl s.params row) (regRead s.x g.rt) (sext32 g.imm) := by
    unfold operandB
    split
    · next h => rw [himm (.inl h)]
    · rfl
  have hpc (z : Bool) : pcUpdate s.pc f.target (sext32 f.imm) (romCtl s.params row) z =
      pcUpdate s.pc g.target (sext32 g.imm) (romCtl s.params row) z := by
    simp only [pcUpdate]
    split
    · next h => rw [himm (.inr (by simpa using (Bool.and_eq_true _ _ ▸ h).1))]
    · split
      · next h => rw [htarget h]
      · rfl
  have hwb (m a : Word) : writeback (romCtl s.params row) f s.x m a = writeback (romCtl s.params row) g s.x m a := by
    have : writeIndex (romCtl s.params row) f = writeIndex (romCtl s.params row) g := by
      unfold writeIndex
      split
      · exact hrt
      · split
        · next h => exact hrd h
        · exact hrt
    simp only [writeback, this]
  simp only [runRow, runStages, aluDispatch_eq, hop, hpc, hwb, hrs, hrt]

/-- The meaning of an instruction read from a word is the run of its row on the word's fields (R140). -/
theorem exec_instrOfRow (w : Word) (row : RomRow) (s : State) :
    exec (instrOfRow w row) s = runRow row (fieldsOf w) s := by
  cases row with
  | j =>
    refine runRow_congr ?_ ?_ (fun _ => ?_) (fun h => by cases h) (fun _ => ?_)
    · simp [fieldsOf, targetOf_rs]
    · simp [fieldsOf, targetOf_rt]
    · simp [fieldsOf, targetOf_imm]
    · simp [fieldsOf]
  | _ => refine runRow_congr ?_ ?_ ?_ ?_ ?_ <;> simp [fieldsOf, romCtl]

/-- Every meaning runs one row or takes one halt (R82, R121, R140). -/
theorem exec_cases (i : Instr) :
    (∃ row f, ∀ s, exec i s = runRow row f s) ∨ ∃ c, c ≠ HaltCause.badALUOp ∧ ∀ s, exec i s = takeHalt c s := by
  cases i with
  | halt => exact .inr ⟨.fetchZero, by simp, fun _ => rfl⟩
  | unsupported w => exact .inr ⟨.badOpcode, by simp, fun _ => rfl⟩
  | _ => exact .inl ⟨_, _, fun _ => rfl⟩

/-- Everything a meaning that answers a next state can have done: taken a halt, or completed a row (R142). -/
theorem exec_next {i : Instr} {s t : State} (h : exec i s = .next t) :
    (∃ c, c ≠ HaltCause.badALUOp ∧ t = s.markHalt c) ∨
      ∃ row f, ¬rowFaults row f s ∧ t = rowNext row f s := by
  rcases exec_cases i with ⟨row, f, hr⟩ | ⟨c, hc, hr⟩
  · rw [hr] at h
    rcases runRow_next h with ⟨_, ht⟩ | ⟨_, hf, ht⟩
    · exact .inl ⟨.haltAddress, by simp, ht⟩
    · exact .inr ⟨row, f, hf, ht⟩
  · rw [hr] at h
    cases h
    exact .inl ⟨c, hc, rfl⟩

/-- A step that answers a next state fetched inside memory. -/
theorem step_next {s t : State} (h : step s = .next t) :
    wordIndex s.pc < s.params.memWords ∧
      exec (decodeWord s.params (s.mem.readWord (wordIndex s.pc))) s = .next t := by
  by_cases hk : s.params.memWords ≤ wordIndex s.pc
  · rw [step, fetch, if_pos hk] at h; cases h
  · have hk' := Nat.lt_of_not_le hk
    exact ⟨hk', step_fetched hk' ▸ h⟩

/-- The step inside memory, by the fetched word: the sentinel, a word without a row, or a row run on the word's fields
(R82, R121, R140). -/
theorem step_rows {s : State} (h : wordIndex s.pc < s.params.memWords) :
    step s =
      let w := s.mem.readWord (wordIndex s.pc)
      if w = 0#32 then takeHalt .fetchZero s
      else match romRow s.params (resolve s.params (opOf w) (functOf w)) with
        | none => takeHalt .badOpcode s
        | some row => runRow row (fieldsOf w) s := by
  rw [step_fetched h]
  simp only [decodeWord]
  split
  · rfl
  · split
    · next row hrow => simp only [hrow]; exact exec_instrOfRow _ _ _
    · next hrow => simp only [hrow]; rfl

end Sys2Proof.Machine
end

