-- ==== Sys2Proof/Tests/Slice0.lean ====
section
/-! SUPPORT. Tests. Expected values come from spec/95_test_vectors.md and the rules' own examples, which each test
names. `test_…` checks the model; `witness_<Name>` meets the hypotheses of Obligations.<Name>. -/

namespace Sys2Proof.Tests

open Sys2Proof.Machine

/-- A small state with the given parameters, pc, registers and memory words. -/
def stateWith (p : Params) (pc : Word) (regs : List (RegIdx × Word)) (words : List (Nat × Word)) : State where
  params := p
  pc := pc
  x := regs.foldl (fun x r => regSet x r.1 r.2) (Vector.replicate 32 0#32)
  mem := words.foldl (fun m w => m.writeWord w.1 w.2) []
  halt := none

/-- The same under the default parameters. -/
abbrev st := stateWith Params.default

/-- The parameters with `HALT_CHECK_ALL = false`. -/
def accessOnly : Params := { Params.default with haltCheckAll := false }

/-- The parameters with `ALIAS_REQUIRES_OP0 = false`. -/
def functOnly : Params := { Params.default with aliasRequiresOp0 := false }

/-- The parameters with an slt collision at 0x2A and an sltu collision at 0x2B. -/
def colliding : Params := { Params.default with aliasCollideSlt := some 0x2A#6, aliasCollideSltu := some 0x2B#6 }

/-- The parameters with `MEM_WORDS = 0`. -/
def noMemory : Params := { Params.default with memWords := 0 }

/-- Register `r` of the next state. -/
def regAfter (o : Host.Outcome State Fault Refusal) (r : RegIdx) : Option Word := (nextOf o).map (fun t => regRead t.x r)

/-- The pc of the next state. -/
def pcAfter (o : Host.Outcome State Fault Refusal) : Option Word := (nextOf o).map State.pc

/-- The halt output of the next state. -/
def haltAfter (o : Host.Outcome State Fault Refusal) : Option (Option HaltCause) := (nextOf o).map State.halt

/-! ### WellFormed: each check refuses an ill-formed term -/

theorem test_wf_add_sentinel_refused : Instr.wellFormed Params.default (.add 0 0 0 0 0) = false := by decide
theorem test_wf_add_compare_funct_refused : Instr.wellFormed Params.default (.add 1 2 3 0 0x2A#6) = false := by decide
theorem test_wf_add_sltu_funct_refused : Instr.wellFormed Params.default (.add 1 2 3 0 0x2B#6) = false := by decide
theorem test_wf_rewritten_addi_refused : Instr.wellFormed functOnly (.addi 0 1 0x002A#16) = false := by decide
theorem test_wf_rewritten_j_refused : Instr.wellFormed functOnly (.j 0x2B#26) = false := by decide
theorem test_wf_colliding_sw_refused : Instr.wellFormed colliding (.sw 1 2 4#16) = false := by decide
theorem test_wf_supported_word_refused : Instr.wellFormed Params.default (.unsupported 0x20010005#32) = false := by decide
theorem test_wf_rewritten_word_refused : Instr.wellFormed functOnly (.unsupported 0x0400002A#32) = false := by decide
theorem test_wf_colliding_word_refused : Instr.wellFormed colliding (.unsupported 0xA8000000#32) = false := by decide

/-! ### Decoding: words written out from the encodings of spec/30_encoding.md R61, R65 and R87 -/

theorem test_decode_halt : decodeTableWord 32 0 = some .halt := by decide
theorem test_decode_slt : decodeTableWord 32 0b000000_00001_00010_00100_00000_101010 = some (.slt 1 2 4 0) := by decide
theorem test_decode_sltu : decodeTableWord 32 0b000000_00001_00010_00100_00011_101011 = some (.sltu 1 2 4 3) := by decide
theorem test_decode_add : decodeTableWord 32 0b000000_00001_00010_00011_00000_100000 = some (.add 1 2 3 0 0x20#6) := by decide
theorem test_decode_j : decodeTableWord 32 0b000010_00000000000000000000000010 = some (.j 2#26) := by decide
theorem test_decode_beq : decodeTableWord 32 0b000100_00001_00010_1111111111111110 = some (.beq 1 2 0xFFFE#16) := by decide
theorem test_decode_addi : decodeTableWord 32 0b001000_00000_00001_0000000000000101 = some (.addi 0 1 5#16) := by decide
theorem test_decode_lui : decodeTableWord 32 0b001111_00101_00001_1000000000000000 = some (.lui 5 1 0x8000#16) := by decide
theorem test_decode_lw : decodeTableWord 32 0b100011_00001_00010_1111111111111100 = some (.lw 1 2 0xFFFC#16) := by decide
theorem test_decode_sw : decodeTableWord 32 0b101011_00011_00000_0000000000000010 = some (.sw 3 0 2#16) := by decide
theorem test_decode_unsupported : decodeTableWord 32 0x04000000 = some (.unsupported 0x04000000#32) := by decide

/-- spec/95 section 2.3: `2001002A` is `slt` of rd 0 with `ALIAS_REQUIRES_OP0 = false`. -/
theorem test_decode_funct_only : decodeWord functOnly 0x2001002A#32 = .slt 0 1 0 0 := by decide

/-- spec/95 section 2.3: `A8000000` is `slt r0,r0,r0` with `ALIAS_COLLIDE_SLT = 0x2A`. -/
theorem test_decode_collision : decodeWord colliding 0xA8000000#32 = .slt 0 0 0 0 := by decide

theorem test_decode_truncated : decodeBytes Params.default [1#8, 2#8, 3#8] = .error .truncated := by rfl

/-! ### Units (spec/95 sections 2.1 and 2.2) -/

theorem test_alu_add_wraps : alu 0xFFFFFFFF#32 1#32 0#3 = ⟨0#32, true⟩ := by decide
theorem test_alu_sub_borrows : alu 0#32 1#32 1#3 = ⟨0xFFFFFFFF#32, false⟩ := by decide
theorem test_alu_slt_signed : alu 0x80000000#32 0x7FFFFFFF#32 2#3 = ⟨1#32, false⟩ := by decide
theorem test_alu_sltu_unsigned : alu 0xFFFFFFFF#32 0#32 3#3 = ⟨0#32, true⟩ := by decide
theorem test_alu_and : alu 0xF0F0F0F0#32 0x0FF00FF0#32 4#3 = ⟨0x00F000F0#32, false⟩ := by decide
theorem test_alu_or : alu 0xF0F0F0F0#32 0x0F0F0F0F#32 5#3 = ⟨0xFFFFFFFF#32, false⟩ := by decide
theorem test_alu_shl16 : alu 0x12345678#32 0xFFFF8001#32 6#3 = ⟨0x80010000#32, false⟩ := by decide
theorem test_alu_not : alu 0xFFFFFFFF#32 0x1234#32 7#3 = ⟨0#32, true⟩ := by decide
theorem test_sext_boundary : sext32 0x8000#16 = 0xFFFF8000#32 ∧ sext32 0x7FFF#16 = 0x00007FFF#32 := by decide

/-! ### Instructions (spec/95 sections 2.4 to 2.6), by single steps of the placed word -/

theorem test_addi_wraps :
    regAfter (step (st 0#32 [(1, 0x7FFFFFFF#32)] [(0, 0x20220001#32)])) 2 = some 0x80000000#32 := by decide

theorem test_addi_halts_in_window :
    haltAfter (step (st 0#32 [(1, 0x0000FFFF#32)] [(0, 0x20220001#32)])) = some (some .haltAddress) ∧
    regAfter (step (stateWith accessOnly 0#32 [(1, 0x0000FFFF#32)] [(0, 0x20220001#32)])) 2 = some 0x00010000#32 := by
  decide

theorem test_mips_sub_runs_as_add :
    regAfter (step (st 0#32 [(1, 7#32), (2, 2#32)] [(0, 0x00221822#32)])) 3 = some 9#32 := by decide

theorem test_mips_jr_writes_register_0 :
    regAfter (step (st 0x40#32 [(31, 0x64#32)] [(16, 0x03E00008#32)])) 0 = some 0x64#32 ∧
    pcAfter (step (st 0x40#32 [(31, 0x64#32)] [(16, 0x03E00008#32)])) = some 0x44#32 := by decide

theorem test_slt_minus_one_below_one :
    regAfter (step (st 0#32 [(1, 0xFFFFFFFF#32), (2, 1#32)] [(0, 0x0022202A#32)])) 4 = some 1#32 := by decide

theorem test_sltu_all_ones_not_below_one :
    regAfter (step (st 0#32 [(1, 0xFFFFFFFF#32), (2, 1#32), (4, 9#32)] [(0, 0x0022202B#32)])) 4 = some 0#32 := by decide

theorem test_lui_ignores_rs :
    regAfter (step (st 0#32 [(5, 0xDEAD#32)] [(0, 0x3CA18000#32)])) 1 = some 0x80000000#32 := by decide

theorem test_lui_one_halts :
    haltAfter (step (st 0#32 [] [(0, 0x3C010001#32)])) = some (some .haltAddress) := by decide

theorem test_lw_wraps_to_word_1 :
    regAfter (step (st 0#32 [(1, 0xFFFFFFFC#32)] [(0, 0x8C220008#32), (1, 0x11#32)])) 2 = some 0x11#32 := by decide

theorem test_lw_drops_low_bits_and_faults_above :
    regAfter (step (st 0#32 [(1, 0x100#32)] [(0, 0x8C220003#32), (0x40, 0x29#32)])) 2 = some 0x29#32 ∧
    faultOf (step (st 0#32 [] [(0, 0x8C22FFF0#32)])) = some (.memOutOfRange 0xFFFFFFF0#32) := by decide

theorem test_sw_stores :
    (nextOf (step (st 0#32 [(1, 0x100#32), (2, 0x2A#32)] [(0, 0xAC220004#32)]))).map (fun t => t.mem.readWord 0x41) =
      some 0x2A#32 := by decide

theorem test_sw_at_halt_index_halts :
    haltAfter (step (st 0#32 [(3, 0xFFFE#32)] [(0, 0xAC600002#32)])) = some (some .haltAddress) ∧
    (nextOf (step (st 0#32 [(3, 0xFFFE#32)] [(0, 0xAC600002#32)]))).map State.mem =
      some (st 0#32 [] [(0, 0xAC600002#32)]).mem := by decide

theorem test_beq_taken_and_not :
    pcAfter (step (st 0x40#32 [(1, 5#32), (2, 5#32)] [(16, 0x10220001#32)])) = some 0x48#32 ∧
    pcAfter (step (st 0x40#32 [(1, 5#32), (2, 6#32)] [(16, 0x10220001#32)])) = some 0x44#32 := by decide

theorem test_beq_backwards :
    pcAfter (step (st 0x40#32 [] [(16, 0x1000FFFE#32)])) = some 0x3C#32 := by decide

theorem test_j_absolute :
    pcAfter (step (st 0x40#32 [] [(16, 0x0BFFFFFF#32)])) = some 0x0FFFFFFC#32 := by decide

theorem test_j_halts_on_overlapping_fields :
    haltAfter (step (st 0x40#32 [(1, 0x8000#32), (2, 0x8000#32)] [(16, 0x08220005#32)])) = some (some .haltAddress) ∧
    pcAfter (step (stateWith accessOnly 0x40#32 [(1, 0x8000#32), (2, 0x8000#32)] [(16, 0x08220005#32)])) =
      some 0x00880014#32 := by decide

theorem test_halt_word :
    haltAfter (step State.reset) = some (some .fetchZero) ∧ pcAfter (step State.reset) = some 0#32 := by decide

theorem test_unsupported_opcode :
    haltAfter (step (st 0#32 [] [(0, 0x04000000#32)])) = some (some .badOpcode) := by decide

theorem test_fetch_at_halt_index_faults :
    faultOf (step (st 0x00010000#32 [] [])) = some (.fetchOutOfRange 0x00010000#32) := by decide

theorem test_placed_word_runs :
    regAfter (step (State.reset.withFetchWord 32 0x20010005)) 1 = some 5#32 := by decide

theorem test_memory_canonical :
    (Memory.writeWord (Memory.writeWord [] 3 0x12345678#32) 3 0#32) = [] ∧
    (Memory.writeWord [] 3 0x00340078#32) = [(12, 0x78#8), (14, 0x34#8)] := by decide

/-! ### Witnesses: a concrete input that meets the hypotheses of each statement that has some -/

theorem witness_DecodeOfEncodeGivesInstrBack :
    Instr.wellFormed Params.default (.add 1 2 3 31 0x3F#6) = true ∧ Instr.wellFormed functOnly (.j 0x3FFFFFF#26) = true ∧
    Instr.wellFormed Params.default (.unsupported 0xFFFFFFFF#32) = true := by decide

theorem witness_EncodeOfDecodeGivesWordBack :
    Params.default.aliasRequiresOp0 = true ∧ Params.default.aliasCollideSlt = none ∧
    Params.default.aliasCollideSltu = none := by decide

theorem witness_RFormatWordsDecodeAsAdd :
    (0x03FFFFFF#32 ≠ 0#32) ∧ opOf 0x03FFFFFF#32 = 0x00#6 ∧ functOf 0x03FFFFFF#32 ≠ 0x2A#6 ∧
    functOf 0x03FFFFFF#32 ≠ 0x2B#6 := by decide

theorem witness_RewriteFollowsAliasRequiresOp0 :
    (functOnly.aliasRequiresOp0 = false ∧ functOf 0x2001002A#32 = 0x2A#6 ∧ functOf 0x2001002B#32 = 0x2B#6) ∧
    (opOf 0x0000002A#32 = 0x00#6 ∧ functOf 0x0000002A#32 = 0x2A#6 ∧ opOf 0x0000002B#32 = 0x00#6 ∧
      functOf 0x0000002B#32 = 0x2B#6) ∧
    (Params.default.aliasRequiresOp0 = true ∧ opOf 0x2001002A#32 ≠ 0x00#6 ∧ Params.default.aliasCollideSlt = none ∧
      Params.default.aliasCollideSltu = none) := by decide

theorem witness_CollisionOpcodesDecodeAsCompares :
    (opOf 0xA8000000#32 ≠ 0x00#6 ∧ colliding.aliasRequiresOp0 = true ∧
      colliding.aliasCollideSlt = some (opOf 0xA8000000#32)) ∧
    (opOf 0xAC000000#32 ≠ 0x00#6 ∧ colliding.aliasCollideSlt ≠ some (opOf 0xAC000000#32) ∧
      colliding.aliasCollideSltu = some (opOf 0xAC000000#32)) := by decide

theorem witness_RomHoldsTheNineVectors :
    Params.default.aliasCollideSlt = none ∧ Params.default.aliasCollideSltu = none := by decide

theorem witness_UnsupportedOpcodeHalts :
    let s := st 0#32 [] [(0, 0xFC000000#32)]
    s.params.aliasRequiresOp0 = true ∧ s.params.aliasCollideSlt = none ∧ s.params.aliasCollideSltu = none ∧
    wordIndex s.pc < s.params.memWords ∧
    opOf (s.mem.readWord (wordIndex s.pc)) ∉ [0x00#6, 0x02#6, 0x04#6, 0x08#6, 0x0F#6, 0x23#6, 0x2B#6] := by decide

theorem witness_StepRunsDecodedInstruction :
    let s := st 0xFFFC#32 [] [(0x3FFF, 0x20010005#32)]
    wordIndex s.pc < s.params.memWords ∧ (decodeBytes s.params (fetchBytes s)).toOption = some (.addi 0 1 5#16, []) := by
  decide

theorem witness_PlacedWordIsTheNextInstruction :
    wordIndex State.reset.pc < State.reset.params.memWords := by decide

theorem witness_FetchBeyondMemoryFaults :
    (st 0x00010000#32 [] []).params.memWords ≤ wordIndex (st 0x00010000#32 [] []).pc ∧
    wordIndex (st 0x0000FFFC#32 [] []).pc < (st 0x0000FFFC#32 [] []).params.memWords := by decide

theorem witness_ZeroWordHaltsTheCycle :
    (let s := st 0xFFFC#32 [] []
     wordIndex s.pc < s.params.memWords ∧ s.mem.readWord (wordIndex s.pc) = 0#32) ∧
    (let s := st 0xFFFC#32 [] [(0x3FFF, 1#32)]
     wordIndex s.pc < s.params.memWords ∧ s.mem.readWord (wordIndex s.pc) ≠ 0#32) := by decide

theorem witness_StepKeepsInvariant :
    (st 0#32 [(1, 0xFFFC#32), (2, 0x2A#32)] [(0, 0xAC220000#32)]).Inv ∧
    (nextOf (step (st 0#32 [(1, 0xFFFC#32), (2, 0x2A#32)] [(0, 0xAC220000#32)]))).isSome = true := by decide

theorem witness_MisalignedLaunchIsRefused :
    (0x00000003#32).toNat % 4 ≠ 0 ∧ (0x00010000#32).toNat % 4 = 0 ∧
    Params.default.memWords ≤ wordIndex 0x00010000#32 := by decide

theorem witness_LaunchLoadsTheCallersState : (0x0000FFFC#32).toNat % 4 = 0 ∧ 0x3FFF < Params.default.memWords := by
  decide

theorem witness_StepKeepsParameters : (nextOf (step (st 0#32 [] [(0, 0x20010005#32)]))).isSome = true := by decide

theorem witness_HaltCommitsNothing :
    haltAfter (step (st 0#32 [] [(0, 0x04000000#32)])) = some (some .badOpcode) := by decide

theorem witness_HaltIsFixedPointWithoutLatch :
    haltAfter (step (st 0#32 [(3, 0xFFFE#32)] [(0, 0xAC600002#32)])) = some (some .haltAddress) := by decide

theorem witness_BadAluOpNeverOccurs :
    haltAfter (step (stateWith { Params.default with jAluOp := 7#3 } 0#32 [] [(0, 0x08000002#32)])) = some none := by
  decide

theorem witness_HaltCausesInStageOrder :
    haltAfter (step (st 0#32 [] [])) = some (some .fetchZero) ∧
    haltAfter (step (st 0#32 [] [(0, 0x04000000#32)])) = some (some .badOpcode) ∧
    haltAfter (step (st 0#32 [] [(0, 0x3C010001#32)])) = some (some .haltAddress) := by decide

theorem witness_FaultsAreExactlyTheTwo :
    faultOf (step (st 0xFFFFFFFC#32 [] [])) = some (.fetchOutOfRange 0xFFFFFFFC#32) ∧
    faultOf (step (st 0#32 [(1, 0x10004#32)] [(0, 0x8C220000#32)])) = some (.memOutOfRange 0x10004#32) ∧
    faultOf (step (st 0#32 [(1, 0x20000#32)] [(0, 0xAC220000#32)])) = some (.memOutOfRange 0x20000#32) := by decide

theorem witness_HaltIndexEndsMemoryAccess :
    wordIndex (dataAddress (st 0#32 [(1, 0x10000#32)] []) 1 3#16) = (st 0#32 [(1, 0x10000#32)] []).params.memWords := by
  decide

theorem witness_NoHaltTestWithoutAccess : (stateWith accessOnly 0#32 [] []).params.haltCheckAll = false := by decide

theorem witness_MemoryPrimitivesReadAndWriteOneWord :
    Params.default.memWords ≤ wordIndex 0x00010000#32 ∧ wordIndex 0x0000FFFF#32 < Params.default.memWords ∧
    Memory.wf [(0, 1#8), (4, 2#8)] := by decide

theorem witness_LowAddressBitsTakeNoPart :
    wordIndex (dataAddress (st 0#32 [(1, 0x100#32)] []) 1 0#16) =
      wordIndex (dataAddress (st 0#32 [(1, 0x100#32)] []) 1 3#16) := by decide

theorem witness_NextPcHasOneSource :
    (romCtl Params.default .beq).branch = true ∧ (romCtl Params.default .j).branch = false ∧
    (romCtl Params.default .j).jump = true ∧ (romCtl Params.default .add).branch = false ∧
    (romCtl Params.default .add).jump = false := by decide

theorem witness_AddiAddsImmediate :
    ¬inHaltWindow (st 0#32 [(1, 0xFFFF#32)] []) (regRead (st 0#32 [(1, 0xFFFF#32)] []).x 1 + BitVec.signExtend 32 0#16) ∧
    inHaltWindow (st 0#32 [(1, 0xFFFF#32)] []) (regRead (st 0#32 [(1, 0xFFFF#32)] []).x 1 + BitVec.signExtend 32 1#16) ∧
    functOnly.aliasRequiresOp0 = false ∧ BitVec.extractLsb' 0 6 0x002A#16 = 0x2A#6 ∧
    BitVec.extractLsb' 0 6 0xFFEB#16 = 0x2B#6 := by decide

theorem witness_AddAddsRegisters :
    inHaltWindow (st 0#32 [(3, 0x8000#32)] [])
      (regRead (st 0#32 [(3, 0x8000#32)] []).x 3 + regRead (st 0#32 [(3, 0x8000#32)] []).x 3) ∧
    ¬inHaltWindow (st 0#32 [(3, 0x8002#32)] [])
      (regRead (st 0#32 [(3, 0x8002#32)] []).x 3 + regRead (st 0#32 [(3, 0x8002#32)] []).x 3) := by decide

theorem witness_SltComparesSigned :
    0 < Params.default.memWords ∧ accessOnly.haltCheckAll = false ∧ noMemory.memWords = 0 ∧
    noMemory.haltCheckAll = true := by decide

theorem witness_SltuComparesUnsigned :
    0 < Params.default.memWords ∧ accessOnly.haltCheckAll = false ∧ noMemory.memWords = 0 ∧
    noMemory.haltCheckAll = true := by decide

theorem witness_LuiLoadsUpperHalf :
    inHaltWindow State.reset (0x0001#16 ++ 0x0000#16) ∧ ¬inHaltWindow State.reset (0x0002#16 ++ 0x0000#16) := by decide

theorem witness_LwLoadsWord :
    wordIndex (0xFFFF#32) < Params.default.memWords ∧ wordIndex (0x10000#32) = Params.default.haltIndex ∧
    Params.default.haltIndex < wordIndex (0x10004#32) ∧
    regRead (st 0#32 [(1, 0x10000#32)] []).x 1 + BitVec.signExtend 32 0xFFFF#16 = 0xFFFF#32 := by decide

theorem witness_SwStoresWord :
    wordIndex (0xFFFF#32) < Params.default.memWords ∧ wordIndex (0x10003#32) = Params.default.haltIndex ∧
    Params.default.haltIndex < wordIndex (0x10004#32) ∧
    regRead (st 0#32 [(1, 0x10000#32)] []).x 1 + BitVec.signExtend 32 3#16 = 0x10003#32 := by decide

theorem witness_BeqBranchesWhenEqual :
    (¬inHaltWindow (st 0#32 [(1, 5#32), (2, 5#32)] []) (5#32 - 5#32) ∧
      regRead (st 0#32 [(1, 5#32), (2, 5#32)] []).x 1 = regRead (st 0#32 [(1, 5#32), (2, 5#32)] []).x 2) ∧
    (¬inHaltWindow (st 0#32 [(1, 5#32), (2, 6#32)] []) (5#32 - 6#32) ∧
      regRead (st 0#32 [(1, 5#32), (2, 6#32)] []).x 1 ≠ regRead (st 0#32 [(1, 5#32), (2, 6#32)] []).x 2) ∧
    inHaltWindow (st 0#32 [(1, 0x10003#32)] [])
      (regRead (st 0#32 [(1, 0x10003#32)] []).x 1 - regRead (st 0#32 [(1, 0x10003#32)] []).x 2) := by decide

theorem witness_JumpGoesToAbsoluteTarget :
    ¬inHaltWindow State.reset (jumpAluResult State.reset 0x3FFFFFF#26) ∧
    inHaltWindow (st 0#32 [(1, 0x8000#32), (2, 0x8000#32)] [])
      (jumpAluResult (st 0#32 [(1, 0x8000#32), (2, 0x8000#32)] []) 0x220005#26) := by decide

theorem witness_JumpIgnoresCurrentPc :
    sameButPc (st 0#32 [] []) (st 0xFFFC#32 [] []) ∧
    haltAfter (exec (.j 0x3FFFFFF#26) (st 0#32 [] [])) = some none ∧
    haltAfter (exec (.j 0x3FFFFFF#26) (st 0xFFFC#32 [] [])) = some none ∧
    (st 0#32 [] []).params.memWords ≤ (0x3FFFFFF#26).toNat := by decide

theorem witness_OnlyDestinationRegisterChanges :
    haltAfter (exec (.add 1 2 3 0 0x20#6) (st 0#32 [(1, 7#32)] [])) = some none ∧
    destination (.add 1 2 3 0 0x20#6) ≠ some 0 := by decide

theorem witness_OnlyStoredWordChanges :
    haltAfter (exec (.sw 1 2 4#16) (st 0#32 [(1, 0x100#32)] [])) = some none ∧
    storeIndex (st 0#32 [(1, 0x100#32)] []) (.sw 1 2 4#16) ≠ some (0x103 / 4) := by decide

theorem witness_AtMostOneWordChangesAndNeverBoth :
    (nextOf (step (st 0#32 [(1, 0x100#32), (2, 0x2A#32)] [(0, 0xAC220004#32)]))).map
      (fun t => decide (t.mem.readWord 0x41 ≠ (st 0#32 [] [(0, 0xAC220004#32)]).mem.readWord 0x41)) = some true := by
  decide

theorem witness_CycleReadsTwoRegistersWritesOne :
    let s := st 0#32 [(1, 7#32), (9, 1#32)] [(0, 0x00221820#32)]
    let t := st 0#32 [(1, 7#32), (9, 2#32)] [(0, 0x00221820#32)]
    let w := s.mem.readWord (wordIndex s.pc)
    s.params = t.params ∧ s.pc = t.pc ∧ s.mem = t.mem ∧ regRead s.x (rsOf w) = regRead t.x (rsOf w) ∧
    regRead s.x (rtOf w) = regRead t.x (rtOf w) ∧ regAfter (step s) 3 = some 7#32 ∧ regAfter (step t) 3 = some 7#32 ∧
    regRead s.x 3 = 0#32 := by decide

theorem witness_StoreSeenByNextFetch :
    let s := st 0#32 [(1, 0#32), (2, 0#32)] [(0, 0xAC220004#32), (1, 0x20010005#32)]
    haltAfter (exec (.sw 1 2 4#16) s) = some none ∧
    (pcAfter (exec (.sw 1 2 4#16) s)).map wordIndex = some (wordIndex (dataAddress s 1 4#16)) ∧
    regRead s.x 2 = 0#32 := by decide

/-! ### The unit ports (R146) -/

/-- Undriven signals of some value. -/
def someUndriven : Undriven := ⟨⟨true, true, true, true, true, true, true, true, 5#3⟩, 0xDEADBEEF#32, 0xDEADBEEF#32⟩

/-- The outputs of PART for the example word of R153, `slt r4,r1,r2` = 0x0022202A, and the commit enable. -/
theorem test_ports_of_slt_word :
    let q := ports someUndriven (st 0#32 [] [(0, 0x0022202A#32)])
    q.op = 0x00#6 ∧ q.fields.rs = 1#5 ∧ q.fields.rt = 2#5 ∧ q.fields.rd = 4#5 ∧ q.shamt = 0#5 ∧ q.funct = 0x2A#6 ∧
    q.eop = 64#7 ∧ q.orch = ⟨false, false, true⟩ := by decide

/-- A fetch outside memory goes before the zero word there, and neither commits (R146, R202). -/
theorem test_ports_stop_priority :
    let zero : Undriven := { someUndriven with imemRdata := 0#32 }
    let q := ports zero (st 0x00010000#32 [] [])
    q.stops.haltFetch = true ∧ q.stops.deciding = some .faultFetch ∧ q.orch = ⟨false, true, false⟩ ∧
    (ports zero (st 0#32 [] [])).stops.deciding = some .haltFetch ∧
    (ports zero (st 0#32 [] [])).orch = ⟨true, false, false⟩ := by decide

theorem witness_OutputsFollowTheDecidingSignal :
    (nextOf (step (st 0#32 [] [(0, 0x04000000#32)]))).isSome = true ∧
    (ports someUndriven (st 0#32 [] [(0, 0x04000000#32)])).stops.deciding = some .haltDecode ∧
    (ports someUndriven (st 0#32 [(1, 0x10004#32)] [(0, 0x8C220000#32)])).stops.deciding = some .faultMem := by decide

theorem witness_StopGatesEveryLoad :
    haltOutput (step (st 0#32 [] [(0, 0x3C010001#32)])) = true ∧
    faultOutput (step (st 0#32 [(1, 0x10004#32)] [(0, 0xAC220000#32)])) = true ∧
    haltOutput (step (st 0#32 [] [(0, 0x20010005#32)])) = false ∧
    faultOutput (step (st 0#32 [] [(0, 0x20010005#32)])) = false := by decide

end Sys2Proof.Tests
end

section
/-! The parameters along a step (spec/00_scope.md R6). -/

namespace Sys2Proof.Machine

/-- A completed row commits only the three state elements of R20. -/
@[simp] theorem rowNext_params (row : RomRow) (f : Fields) (s : State) : (rowNext row f s).params = s.params :=
  State.commit_params ..

/-- Both ways a meaning can answer a next state, a taken halt and a completed row, keep the parameters. -/
theorem exec_next_params {i : Instr} {s t : State} (h : exec i s = .next t) : t.params = s.params := by
  rcases exec_next h with ⟨c, _, rfl⟩ | ⟨row, f, _, rfl⟩
  · exact State.markHalt_params s c
  · exact rowNext_params row f s

/-- Settles O21: a step that answers a next state is the meaning of the decoded instruction, which keeps the
parameters. -/
theorem stepKeepsParameters : Obligations.StepKeepsParameters := by
  intro s t h
  obtain ⟨_, hexec⟩ := step_next h
  exact exec_next_params hexec

end Sys2Proof.Machine
end

section
/-! The invariant of a run (spec/10_state.md R24, R26, spec/20_memory.md R40): at reset and along a step. -/

namespace Sys2Proof.Machine

theorem Memory.wf_nil : Memory.wf [] := ⟨.nil, List.forall_mem_nil _⟩

/-- Settles O17: the empty memory is canonical, and the other fields of the reset state are the defaults. -/
theorem resetMeetsInvariant : Obligations.ResetMeetsInvariant :=
  ⟨⟨Memory.wf_nil, List.forall_mem_nil _, rfl⟩, rfl, rfl, rfl, rfl, rfl, rfl, rfl, rfl⟩

@[simp] theorem rowNext_mem (row : RomRow) (f : Fields) (s : State) : (rowNext row f s).mem = rowMem row f s :=
  State.commit_mem ..

/-- A row that does not fault stores nothing, or one word inside the array (R49, R125). -/
theorem rowMem_cases {row : RomRow} {f : Fields} {s : State} (h : ¬rowFaults row f s) :
    rowMem row f s = s.mem ∨
      ∃ k v, k < s.params.memWords ∧ rowMem row f s = s.mem.writeWord k v := by
  rw [rowMem]
  split
  · next hw => exact .inr ⟨_, _, Nat.lt_of_not_le fun hk => h ⟨by simp [hw], hk⟩, rfl⟩
  · exact .inl rfl

/-- A completed row keeps the invariant: its store by the laws of memory, its next pc by R26. -/
theorem rowNext_inv {row : RomRow} {f : Fields} {s : State} (hs : s.Inv) (h : ¬rowFaults row f s) :
    (rowNext row f s).Inv := by
  obtain ⟨hwf, hin, hpc⟩ := hs
  have hpc' : (rowNext row f s).pcAligned := pcUpdate_aligned hpc ..
  simp only [State.Inv, State.memInArray, rowNext_mem, rowNext_params]
  rcases rowMem_cases h with hm | ⟨k, v, hk, hm⟩ <;> rw [hm]
  · exact ⟨hwf, hin, hpc'⟩
  · exact ⟨Memory.wf_writeWord hwf k v, Memory.bound_writeWord hin v hk, hpc'⟩

/-- Both ways a meaning can answer a next state keep the invariant; a halt changes none of what it speaks of (R142). -/
theorem exec_next_inv {i : Instr} {s t : State} (hs : s.Inv) (h : exec i s = .next t) : t.Inv := by
  rcases exec_next h with ⟨c, _, rfl⟩ | ⟨row, f, hf, rfl⟩
  · exact hs
  · exact rowNext_inv hs hf

/-- Settles O18: a step that answers a next state is the meaning of the decoded instruction, which keeps the
invariant. -/
theorem stepKeepsInvariant : Obligations.StepKeepsInvariant := by
  intro s t hs h
  obtain ⟨_, hexec⟩ := step_next h
  exact exec_next_inv hs hexec

end Sys2Proof.Machine
end

section
/-! The start of a run (spec/10_state.md R33, spec/70_reset_and_hazards.md R220). -/

namespace Sys2Proof.Machine

theorem Memory.readWord_nil (k : Nat) : Memory.readWord [] k = 0#32 := by
  simp only [Memory.readWord, Memory.readByte]
  rfl

theorem Memory.wf_ofWords (p : Params) (mInit : List Word) : (Memory.ofWords p mInit).wf :=
  Memory.wf_load Memory.wf_nil ..

theorem Memory.bound_ofWords (p : Params) (mInit : List Word) :
    ∀ c ∈ Memory.ofWords p mInit, c.1 < 4 * p.memWords :=
  Memory.bound_load (List.forall_mem_nil _) _ _ (by simp)

/-- Each word of the array is the caller's, or 0 past the end of the caller's list (log 9). -/
theorem Memory.readWord_ofWords {p : Params} (mInit : List Word) {k : Nat} (hk : k < p.memWords) :
    (Memory.ofWords p mInit).readWord k = (mInit[k]?).getD 0#32 := by
  rw [Memory.ofWords]
  by_cases hl : k < mInit.length
  · have h := Memory.readWord_load [] 0 (mInit.take p.memWords) (l := k) (by simp [hk, hl])
    rw [Nat.zero_add] at h
    rw [h]
    simp [hl]
  · rw [Memory.readWord_load_above _ _ (by simp; omega), Memory.readWord_nil, List.getElem?_eq_none (by omega)]
    rfl

/-- Settles O20: the test of R221 passes on the caller's pc, and the memory is the loaded array. -/
theorem launchLoadsTheCallersState : Obligations.LaunchLoadsTheCallersState := by
  intro p pc0 rInit mInit hpc
  have hal : pc0.extractLsb' 0 2 = 0#2 := (low_bits_zero_iff pc0).2 hpc
  refine ⟨_, if_pos hal, ⟨Memory.wf_ofWords p mInit, Memory.bound_ofWords p mInit, hal⟩, rfl, rfl, rfl, rfl, ?_⟩
  exact fun k hk => Memory.readWord_ofWords mInit hk

end Sys2Proof.Machine
end

section
/-! What a cycle reads and writes of the register file (spec/10_state.md R22, R23, spec/40_datapath.md R141). -/

namespace Sys2Proof.Machine

/-! ### The write port (R116) -/

theorem regRead_regWrite (x : Regs) (r q : RegIdx) (v : Word) (e : Bool) :
    regRead (regWrite x r v e) q = if e = true ∧ q = r then v else regRead x q := by
  cases e with
  | false => simp
  | true =>
    by_cases hq : q = r
    · subst hq; simp
    · simp [hq, regRead_regSet_ne x v hq]

/-- Settles O31: the write port by its enable. -/
theorem registerWriteReadsBack : Obligations.RegisterWriteReadsBack := by
  intro x r q v
  exact ⟨by simpa using regRead_regWrite x r q v true, regWrite_false x r v⟩

/-- A register that a write changes is the one it names. -/
theorem eq_of_regWrite_changes {x : Regs} {r q : RegIdx} {v : Word} {e : Bool}
    (h : regRead (regWrite x r v e) q ≠ regRead x q) : q = r := by
  by_contra hq
  exact h (by simp [regRead_regWrite, hq])

/-- One write on two register files: a register that agreed before, or that the write changes in the first file,
agrees after. -/
theorem regWrite_agrees {x y : Regs} {r q : RegIdx} {v : Word} {e : Bool}
    (h : regRead x q = regRead y q ∨ regRead (regWrite x r v e) q ≠ regRead x q) :
    regRead (regWrite x r v e) q = regRead (regWrite y r v e) q := by
  simp only [regRead_regWrite] at h ⊢
  split
  · rfl
  · next hn => exact h.resolve_right (by simp [hn])

/-! ### A cycle on two states that agree on what it reads -/

/-- The states agree on all that a cycle with the sources `rs` and `rt` reads (R23, R141). -/
structure SameInputs (rs rt : RegIdx) (s t : State) : Prop where
  params : s.params = t.params
  pc : s.pc = t.pc
  mem : s.mem = t.mem
  rs : regRead s.x rs = regRead t.x rs
  rt : regRead s.x rt = regRead t.x rt

/-- The next states `u` of `s` and `v` of `t` agree on the pc, memory, the halt output and every register that agreed
before or that the first cycle changes. -/
def NextAgrees (s t u v : State) : Prop :=
  u.pc = v.pc ∧ u.mem = v.mem ∧ u.halt = v.halt ∧
    ∀ r : RegIdx, (regRead s.x r = regRead t.x r ∨ regRead u.x r ≠ regRead s.x r) → regRead u.x r = regRead v.x r

/-- The outcomes `o` of `s` and `o'` of `t` fault alike, and their next states agree. -/
def OutcomesAgree (s t : State) (o o' : Host.Outcome State Fault Refusal) : Prop :=
  faultOf o = faultOf o' ∧ ∀ u v : State, o = .next u → o' = .next v → NextAgrees s t u v

theorem outcomesAgree_fault (s t : State) (r : Fault) : OutcomesAgree s t (.fault r) (.fault r) :=
  ⟨rfl, fun _ _ hu => nomatch hu⟩

theorem outcomesAgree_next {s t u v : State} (h : NextAgrees s t u v) : OutcomesAgree s t (.next u) (.next v) := by
  refine ⟨rfl, fun u' v' hu hv => ?_⟩
  cases hu
  cases hv
  exact h

section
variable {rs rt : RegIdx} {f : Fields} {s t : State}

/-- A halt changes no register, so the registers that agree after it are those that agreed before (R142). -/
theorem takeHalt_agrees (h : SameInputs rs rt s t) (c : HaltCause) :
    OutcomesAgree s t (takeHalt c s) (takeHalt c t) :=
  outcomesAgree_next ⟨h.pc, h.mem, rfl, fun _ hr => hr.resolve_right (not_not_intro rfl)⟩

theorem rowAlu_congr (h : SameInputs f.rs f.rt s t) (row : RomRow) : rowAlu row f s = rowAlu row f t := by
  simp only [rowAlu, h.params, h.rs, h.rt]

theorem rowMemdata_congr (h : SameInputs f.rs f.rt s t) (row : RomRow) : rowMemdata row f s = rowMemdata row f t := by
  simp only [rowMemdata, h.params, h.mem, rowAlu_congr h row]

theorem rowMem_congr (h : SameInputs f.rs f.rt s t) (row : RomRow) : rowMem row f s = rowMem row f t := by
  simp only [rowMem, h.params, h.mem, h.rt, rowAlu_congr h row]

theorem rowHalts_congr (h : SameInputs f.rs f.rt s t) (row : RomRow) : rowHalts row f s ↔ rowHalts row f t := by
  simp only [rowHalts, h.params, rowAlu_congr h row]

theorem rowFaults_congr (h : SameInputs f.rs f.rt s t) (row : RomRow) : rowFaults row f s ↔ rowFaults row f t := by
  simp only [rowFaults, h.params, rowAlu_congr h row]

/-- The one register write of a completed row (R128). -/
theorem rowNext_x (row : RomRow) (f : Fields) (s : State) :
    (rowNext row f s).x =
      regWrite s.x (writeIndex (romCtl s.params row) f)
        (writeValue (romCtl s.params row) (rowMemdata row f s) (rowAlu row f s).result)
        (romCtl s.params row).regWrite := rfl

/-- A completed row makes the same register write on both states. -/
theorem rowNext_agrees (h : SameInputs f.rs f.rt s t) (row : RomRow) :
    NextAgrees s t (rowNext row f s) (rowNext row f t) := by
  refine ⟨?_, ?_, rfl, fun r hr => ?_⟩
  · simp only [rowNext, State.commit_pc, h.params, h.pc, rowAlu_congr h row]
  · simp only [rowNext_mem, rowMem_congr h row]
  · simp only [rowNext_x, h.params, rowMemdata_congr h row, rowAlu_congr h row] at hr ⊢
    exact regWrite_agrees hr

/-- A row halts on both states, faults alike on both, or completes on both. -/
theorem runRow_agrees (h : SameInputs f.rs f.rt s t) (row : RomRow) :
    OutcomesAgree s t (runRow row f s) (runRow row f t) := by
  rw [runRow_eq, runRow_eq]
  simp only [rowHalts_congr h row, rowFaults_congr h row, rowAlu_congr h row]
  split
  · exact takeHalt_agrees h .haltAddress
  · split
    · exact outcomesAgree_fault ..
    · exact outcomesAgree_next (rowNext_agrees h row)

end

theorem step_fetch_fault {s : State} (h : s.params.memWords ≤ wordIndex s.pc) :
    step s = .fault (.fetchOutOfRange s.pc) := by
  rw [step, fetch, if_pos h]

/-- The whole cycle reads the two registers that the fetched word names, and no other. -/
theorem step_agrees {s t : State} {w : Word} (hw : s.mem.readWord (wordIndex s.pc) = w)
    (h : SameInputs (rsOf w) (rtOf w) s t) : OutcomesAgree s t (step s) (step t) := by
  have hw' : t.mem.readWord (wordIndex t.pc) = w := by rw [← h.mem, ← h.pc, hw]
  by_cases hk : s.params.memWords ≤ wordIndex s.pc
  · rw [step_fetch_fault hk, step_fetch_fault (by rwa [← h.params, ← h.pc]), h.pc]
    exact outcomesAgree_fault ..
  · have hs : wordIndex s.pc < s.params.memWords := Nat.lt_of_not_le hk
    rw [step_rows hs, step_rows (by rwa [← h.params, ← h.pc]), hw, hw', ← h.params]
    dsimp only
    split
    · exact takeHalt_agrees h .fetchZero
    · split
      · exact takeHalt_agrees h .badOpcode
      · next row _ => exact runRow_agrees (f := fieldsOf w) h row

/-- All the registers that a meaning changes are one register: the one its row's writeback names (R128, R141). -/
theorem exec_changes_one {i : Instr} {s t : State} (h : exec i s = .next t) :
    ∃ d, ∀ r, regRead t.x r ≠ regRead s.x r → r = d := by
  rcases exec_next h with ⟨c, _, rfl⟩ | ⟨row, f, _, rfl⟩
  · exact ⟨0, fun _ hr => absurd rfl hr⟩
  · exact ⟨_, fun _ hr => eq_of_regWrite_changes hr⟩

/-- Settles O48: the step agrees on states that agree on its inputs, and it makes at most one register write. -/
theorem cycleReadsTwoRegistersWritesOne : Obligations.CycleReadsTwoRegistersWritesOne := by
  refine ⟨fun s t hp hpc hm hrs hrt => step_agrees rfl ⟨hp, hpc, hm, hrs, hrt⟩, fun s t h r q hr hq => ?_⟩
  obtain ⟨_, hexec⟩ := step_next h
  obtain ⟨d, hd⟩ := exec_changes_one hexec
  rw [hd r hr, hd q hq]

end Sys2Proof.Machine
end

section
/-! The data port of memory (spec/20_memory.md R41, R43, R44, R49). -/

namespace Sys2Proof.Machine

/-- Settles O32: the fault test of each primitive, then the laws of a written word. -/
theorem memoryPrimitivesReadAndWriteOneWord : Obligations.MemoryPrimitivesReadAndWriteOneWord := by
  intro p m addr v
  refine ⟨fun hout => ⟨if_pos hout, if_pos hout⟩, fun hin => ?_⟩
  have hin' : ¬p.memWords ≤ wordIndex addr := Nat.not_le.2 hin
  refine ⟨if_neg hin', m.writeWord (wordIndex addr) v, if_neg hin', ?_, fun l hl => ?_, fun hm => ?_⟩
  · exact Memory.readWord_writeWord_same ..
  · exact Memory.readWord_writeWord_ne m v hl
  · exact Memory.wf_writeWord hm ..

/-- Clearing the low two bits of an address keeps its word index (R41). -/
theorem wordIndex_clear_low (a : Word) : wordIndex (a &&& ~~~3#32) = wordIndex a := by
  have hmask : a >>> 2 &&& 0x3FFFFFFF#32 = a >>> 2 := by
    apply BitVec.eq_of_toNat_eq
    have hlt := a.isLt
    rw [BitVec.toNat_and, BitVec.toNat_ushiftRight, Nat.shiftRight_eq_div_pow]
    exact (Nat.and_two_pow_sub_one_eq_mod _ 30).trans (Nat.mod_eq_of_lt (by omega))
  rw [wordIndex, BitVec.ushiftRight_and_distrib]
  exact congrArg BitVec.toNat hmask

end Sys2Proof.Machine
end

section
/-! Loads and stores by the word index of their address (spec/42_load_store.md R170, R171), and what they change. -/

namespace Sys2Proof.Machine

section
variable (rs rt : RegIdx) (imm : Imm) (s : State)

@[simp] theorem rowAlu_lw : (rowAlu .lw (iFormat rs rt imm) s).result = dataAddress s rs imm := by
  simp [rowAlu, romCtl, operandB]

@[simp] theorem rowAlu_sw : (rowAlu .sw (iFormat rs rt imm) s).result = dataAddress s rs imm := by
  simp [rowAlu, romCtl, operandB]

/-- A load that completes writes `rt` alone (R170). -/
theorem rowNext_lw :
    rowNext .lw (iFormat rs rt imm) s =
      s.commit (s.pc + 4#32) (regSet s.x rt (s.mem.readWord (wordIndex (dataAddress s rs imm)))) s.mem := by
  simp [rowNext, rowMem, rowMemdata, romCtl, pcUpdate, writeback, writeIndex, writeValue]

/-- A store that completes writes the addressed word alone (R171). -/
theorem rowNext_sw :
    rowNext .sw (iFormat rs rt imm) s =
      s.commit (s.pc + 4#32) s.x (s.mem.writeWord (wordIndex (dataAddress s rs imm)) (regRead s.x rt)) := by
  simp [rowNext, rowMem, romCtl, pcUpdate, writeback]

/-- A load halts at the halt index, faults above it and completes below it (R170). -/
theorem exec_lw :
    exec (.lw rs rt imm) s =
      if wordIndex (dataAddress s rs imm) = s.params.haltIndex then .next (s.markHalt .haltAddress)
      else if s.params.memWords ≤ wordIndex (dataAddress s rs imm) then .fault (.memOutOfRange (dataAddress s rs imm))
      else .next (s.commit (s.pc + 4#32)
        (regSet s.x rt (s.mem.readWord (wordIndex (dataAddress s rs imm)))) s.mem) := by
  have hrun : exec (.lw rs rt imm) s = runRow .lw (iFormat rs rt imm) s := rfl
  rw [hrun, runRow_eq, rowNext_lw]
  simp [rowHalts, rowFaults, haltTestApplies, romCtl]

/-- A store halts at the halt index, faults above it and completes below it (R171). -/
theorem exec_sw :
    exec (.sw rs rt imm) s =
      if wordIndex (dataAddress s rs imm) = s.params.haltIndex then .next (s.markHalt .haltAddress)
      else if s.params.memWords ≤ wordIndex (dataAddress s rs imm) then .fault (.memOutOfRange (dataAddress s rs imm))
      else .next (s.commit (s.pc + 4#32) s.x
        (s.mem.writeWord (wordIndex (dataAddress s rs imm)) (regRead s.x rt))) := by
  have hrun : exec (.sw rs rt imm) s = runRow .sw (iFormat rs rt imm) s := rfl
  rw [hrun, runRow_eq, rowNext_sw]
  simp [rowHalts, rowFaults, haltTestApplies, romCtl]

end

/-- Everything a store that answers a next state can have done: halted, or stored its word inside the array. -/
theorem exec_sw_next {rs rt : RegIdx} {imm : Imm} {s t : State} (h : exec (.sw rs rt imm) s = .next t) :
    t = s.markHalt .haltAddress ∨
      (wordIndex (dataAddress s rs imm) < s.params.memWords ∧
        t = s.commit (s.pc + 4#32) s.x (s.mem.writeWord (wordIndex (dataAddress s rs imm)) (regRead s.x rt))) := by
  rw [exec_sw] at h
  split at h
  · cases h; exact .inl rfl
  · split at h
    · cases h
    · next hin => cases h; exact .inr ⟨Nat.lt_of_not_le hin, rfl⟩

/-- Settles O33: a load's or store's next state depends on the address through its word index alone; only the fault
names the address. -/
theorem lowAddressBitsTakeNoPart : Obligations.LowAddressBitsTakeNoPart := by
  refine ⟨fun a => ⟨wordIndex_eq_div a, (wordIndex_clear_low a).symm⟩, fun s rs rt imm imm' hidx => ⟨?_, ?_⟩⟩
  · rw [exec_lw, exec_lw, hidx]
    split_ifs <;> simp only [nextOf]
  · rw [exec_sw, exec_sw, hidx]
    split_ifs <;> simp only [nextOf]

/-- The halt window of the default size (R47). -/
theorem wordIndex_eq_default_haltIndex (v : Word) :
    wordIndex v = Params.default.haltIndex ↔ 0x00010000 ≤ v.toNat ∧ v.toNat ≤ 0x00010003 := by
  have hsize : Params.default.haltIndex = 16384 := rfl
  rw [wordIndex_eq_div, hsize]
  omega

/-- Settles O27: the halt-index test comes before the access. -/
theorem haltIndexEndsMemoryAccess : Obligations.HaltIndexEndsMemoryAccess := by
  refine ⟨fun v => ?_, fun s rs rt imm hidx => ⟨?_, ?_⟩⟩
  · exact wordIndex_eq_default_haltIndex v
  · rw [exec_lw, if_pos hidx]; rfl
  · rw [exec_sw, if_pos hidx]; rfl

/-! ### The memory frame (R44, R125) -/

/-- A row without MemWrite leaves memory as it was, whether it halts or completes. -/
theorem runRow_next_mem {row : RomRow} {f : Fields} {s t : State} (hw : (romCtl s.params row).memWrite = false)
    (h : runRow row f s = .next t) : t.mem = s.mem := by
  rcases runRow_next h with ⟨_, rfl⟩ | ⟨_, _, rfl⟩
  · rfl
  · simp [rowMem, hw]

/-- A meaning that answers a next state left memory as it was, or wrote the word of its store index. -/
theorem exec_next_mem {i : Instr} {s t : State} (h : exec i s = .next t) :
    t.mem = s.mem ∨ ∃ k v, storeIndex s i = some k ∧ t.mem = s.mem.writeWord k v := by
  cases i with
  | halt => cases h; exact .inl rfl
  | unsupported word => cases h; exact .inl rfl
  | sw rs rt imm =>
    rcases exec_sw_next h with rfl | ⟨_, rfl⟩
    · exact .inl rfl
    · exact .inr ⟨_, _, rfl, rfl⟩
  | _ => exact .inl (runRow_next_mem rfl h)

/-- Settles O46: a byte outside the written word keeps its value. -/
theorem onlyStoredWordChanges : Obligations.OnlyStoredWordChanges := by
  intro i s t h a ha
  rcases exec_next_mem h with hm | ⟨k, v, hk, hm⟩ <;> rw [hm]
  exact Memory.readByte_writeWord_ne _ _ fun hak => ha (hak ▸ hk)

end Sys2Proof.Machine
end

section
/-! The fetch port of memory (spec/20_memory.md R46, R54). -/

namespace Sys2Proof.Machine

/-- Settles O12: the fetch tests the word index of the pc and nothing else. -/
theorem fetchBeyondMemoryFaults : Obligations.FetchBeyondMemoryFaults :=
  fun _ => ⟨step_fetch_fault, fetch_ok⟩

/-- A step that fetches the all-zero word halts (R121). -/
theorem step_zero_word {s : State} (h : fetch s = .ok 0#32) : step s = .next (s.markHalt .fetchZero) := by
  rw [step, h]; rfl

/-- Settles O49: the store wrote the word that the next cycle fetches. -/
theorem storeSeenByNextFetch : Obligations.StoreSeenByNextFetch := by
  intro s t rs rt imm h hrun hpc
  rcases exec_sw_next h with rfl | ⟨hin, ht⟩
  · cases hrun
  have hmem : t.mem.readWord (wordIndex t.pc) = regRead s.x rt := by
    rw [hpc, ht]; exact Memory.readWord_writeWord_same ..
  have hfetch : fetch t = .ok (regRead s.x rt) := by
    rw [fetch_ok (by rw [hpc, ht]; exact hin), hmem]
  exact ⟨hfetch, fun hzero => step_zero_word (hzero ▸ hfetch)⟩

end Sys2Proof.Machine
end

section
/-! The decoder's compares, adds and words without a row (spec/30_encoding.md R70 to R72, R82, R83). -/

namespace Sys2Proof.Machine

section
variable {p : Params} {w : Word}

/-- R71 by its own condition: the rewrite takes every compare code of opcode 0, and of any opcode where
`ALIAS_REQUIRES_OP0` is false. -/
theorem decodeWord_compareFunct (h : p.aliasRequiresOp0 = false ∨ opOf w = 0x00#6)
    (hf : isCompareFunct (functOf w) = true) :
    decodeWord p w =
      if functOf w = 0x2A#6 then .slt (rsOf w) (rtOf w) (rdOf w) (shamtOf w)
      else .sltu (rsOf w) (rtOf w) (rdOf w) (shamtOf w) := by
  rcases h with ha | h0
  · exact decodeWord_rewritten ha hf
  · have hw : w ≠ 0#32 := by rintro rfl; revert hf; decide
    have hor : functOf w = 0x2A#6 ∨ functOf w = 0x2B#6 := by simpa [isCompareFunct] using hf
    rw [decodeWord_op0 p hw h0]
    split
    · rfl
    · next hslt => rw [if_pos (hor.resolve_left hslt)]

theorem escapesRewrite_iff (low : Funct) :
    escapesRewrite p low = true ↔ p.aliasRequiresOp0 = true ∨ (low ≠ 0x2A#6 ∧ low ≠ 0x2B#6) := by
  simp [escapesRewrite, isCompareFunct]

/-- Under the default alias parameters the decoder takes every nonzero opcode as itself. -/
theorem keepsOpcode_of_default_alias (ha : p.aliasRequiresOp0 = true) (hs : p.aliasCollideSlt = none)
    (ht : p.aliasCollideSltu = none) (op : Opcode) (low : Funct) : keepsOpcode p op low = true := by
  simp [keepsOpcode, escapesRewrite, escapesCollision, ha, hs, ht]

/-- A word decoded by its primary opcode is no compare. -/
theorem decodeWord_primary_not_compare (h0 : opOf w ≠ 0x00#6) (h : keepsOpcode p (opOf w) (functOf w) = true)
    (rs rt rd : RegIdx) (shamt : Shamt) :
    decodeWord p w ≠ .slt rs rt rd shamt ∧ decodeWord p w ≠ .sltu rs rt rd shamt := by
  rw [decodeWord_primary h0 h]
  split_ifs <;> exact ⟨nofun, nofun⟩

/-- A word whose opcode has no row, and gets none by a parameter, is unsupported (R82, R85). -/
theorem decodeWord_unsupported (h : opOf w ∉ supportedOpcodes) (hk : keepsOpcode p (opOf w) (functOf w) = true) :
    decodeWord p w = .unsupported w := by
  simp only [supportedOpcodes, List.mem_cons, List.not_mem_nil, or_false, not_or] at h
  obtain ⟨h0, hj, hbeq, haddi, hlui, hlw, hsw⟩ := h
  rw [decodeWord_primary h0 hk, if_neg hj, if_neg hbeq, if_neg haddi, if_neg hlui, if_neg hlw, if_neg hsw]

end

/-- The add row reads neither `shamt` nor `funct`, nor the immediate and target they overlap (R83). -/
theorem exec_add_ignores_shamt_funct (rs rt rd : RegIdx) (shamt shamt' : Shamt) (funct funct' : Funct) (s : State) :
    exec (.add rs rt rd shamt funct) s = exec (.add rs rt rd shamt' funct') s := by
  refine runRow_congr (row := .add) ?_ ?_ ?_ ?_ ?_ <;> simp [romCtl]

/-- Settles O5: opcode 0 without a compare code is the add row, which reads only the registers. -/
theorem rFormatWordsDecodeAsAdd : Obligations.RFormatWordsDecodeAsAdd := by
  intro p w hw h0 hslt hsltu
  have hdec : decodeWord p w = .add (rsOf w) (rtOf w) (rdOf w) (shamtOf w) (functOf w) := by
    rw [decodeWord_op0 p hw h0, if_neg hslt, if_neg hsltu]
  exact ⟨hdec, fun s => hdec ▸ exec_add_ignores_shamt_funct ..⟩

/-- Settles O6: the rewrite's condition decides whether the function code or the opcode is decoded. -/
theorem rewriteFollowsAliasRequiresOp0 : Obligations.RewriteFollowsAliasRequiresOp0 := by
  refine ⟨rfl, fun p w => ⟨fun h => ⟨fun hf => ?_, fun hf => ?_⟩, fun ha h0 hs ht => ?_⟩⟩
  · rw [decodeWord_compareFunct h (by rw [hf]; rfl), if_pos hf]
  · rw [decodeWord_compareFunct h (by rw [hf]; rfl), if_neg (by rw [hf]; decide)]
  · exact decodeWord_primary_not_compare h0 (keepsOpcode_of_default_alias ha hs ht ..)

/-- Settles O7: a word that escapes the rewrite and whose opcode a parameter names takes that parameter's row. -/
theorem collisionOpcodesDecodeAsCompares : Obligations.CollisionOpcodesDecodeAsCompares := by
  intro p w h0 h
  have hesc : escapesRewrite p (functOf w) = true := (escapesRewrite_iff _).2 h
  refine ⟨fun hs => ?_, fun hs ht => ?_⟩
  · have hc : escapesCollision p (opOf w) = false := by simp [escapesCollision, hs]
    rw [decodeWord_collides h0 hesc hc, if_pos hs]
  · have hc : escapesCollision p (opOf w) = false := by simp [escapesCollision, ht]
    rw [decodeWord_collides h0 hesc hc, if_neg hs]

/-- Settles O9: the meaning is the taken halt, and a word without a row decodes to it. -/
theorem unsupportedOpcodeHalts : Obligations.UnsupportedOpcodeHalts := by
  refine ⟨fun _ _ => rfl, fun s ha hs ht hpc hop => ?_⟩
  rw [step_fetched hpc, decodeWord_unsupported hop (keepsOpcode_of_default_alias ha hs ht ..)]
  rfl

end Sys2Proof.Machine
end

section
/-! The control ROM (spec/30_encoding.md R81), and the register frame that its RegWrite and RegDst cells give (R64,
spec/40_datapath.md R128). -/

namespace Sys2Proof.Machine

/-- Settles O8: without collisions only the effective opcode selects the row; the vectors are row by row. -/
theorem romHoldsTheNineVectors : Obligations.RomHoldsTheNineVectors := by
  intro p hs ht
  have hrow (op : Opcode) (h0 : op ≠ 0x00#6) := romRow_primary (p := p) h0 (by simp [escapesCollision, hs, ht])
  refine ⟨hrow 0x08#6 (by decide), rfl, rfl, hrow 0x2B#6 (by decide), rfl, hrow 0x23#6 (by decide),
    hrow 0x02#6 (by decide), hrow 0x04#6 (by decide), hrow 0x0F#6 (by decide), fun row => ?_⟩
  cases row <;> simp [romCtl]

/-- A row that answers a next state changes no register but the one its writeback names, and that only under
RegWrite; a halt changes none. -/
theorem runRow_next_regRead {row : RomRow} {f : Fields} {s t : State} {r : RegIdx} (h : runRow row f s = .next t)
    (hr : (romCtl s.params row).regWrite = true → r ≠ writeIndex (romCtl s.params row) f) :
    regRead t.x r = regRead s.x r := by
  rcases runRow_next h with ⟨_, rfl⟩ | ⟨_, _, rfl⟩
  · rfl
  · rw [rowNext_x, regRead_regWrite, if_neg fun ⟨hw, he⟩ => hr hw he]

/-- Settles O45: the halting rows change no register, and each ROM row names the instruction's result field or has
RegWrite clear. -/
theorem onlyDestinationRegisterChanges : Obligations.OnlyDestinationRegisterChanges := by
  intro i s t h r hr
  cases i with
  | halt => cases h; rfl
  | unsupported word => cases h; rfl
  | j target => exact runRow_next_regRead h (by simp [romCtl])
  | beq rs rt imm => exact runRow_next_regRead h (by simp [romCtl])
  | sw rs rt imm => exact runRow_next_regRead h (by simp [romCtl])
  | _ => exact runRow_next_regRead h (by simpa [romCtl, writeIndex, destination, eq_comm] using hr)

end Sys2Proof.Machine
end

section
/-! The single-cycle orchestrator (spec/40_datapath.md R140). -/

namespace Sys2Proof.Machine

/-- The word that the fetch of a state inside memory reads (R120). -/
abbrev fetchedWord (s : State) : Word := s.mem.readWord (wordIndex s.pc)

/-- The row of the control ROM that the fetched word selects (R70, R81). -/
abbrev fetchedRow (s : State) : Option RomRow :=
  romRow s.params (resolve s.params (opOf (fetchedWord s)) (functOf (fetchedWord s)))

section
variable {s : State} (hpc : wordIndex s.pc < s.params.memWords)
include hpc

theorem step_zero (hw : fetchedWord s = 0#32) : step s = takeHalt .fetchZero s := by
  rw [step_rows hpc]; exact if_pos hw

theorem step_noRow (hw : fetchedWord s ≠ 0#32) (hrow : fetchedRow s = none) : step s = takeHalt .badOpcode s := by
  rw [step_rows hpc]
  simp only [if_neg hw, hrow]

theorem step_row {row : RomRow} (hw : fetchedWord s ≠ 0#32) (hrow : fetchedRow s = some row) :
    step s = runRow row (fieldsOf (fetchedWord s)) s := by
  rw [step_rows hpc]
  simp only [if_neg hw, hrow]

end

/-- The register that writeback names and the value it writes, case by case as R140 has them. -/
theorem writeback_eq (ctl : Ctl) (f : Fields) (x : Regs) (memdata aluRes : Word) :
    writeback ctl f x memdata aluRes =
      if !ctl.regWrite then x
      else if ctl.memtoReg then regSet x f.rt memdata
      else if ctl.regDst then regSet x f.rd aluRes
      else regSet x f.rt aluRes := by
  simp only [writeback, writeIndex, writeValue]
  cases ctl.regWrite
  · rfl
  · cases ctl.memtoReg
    · cases ctl.regDst <;> rfl
    · rfl

/-- A row run on the fields of a word is the cycle of R140 under the row's vector: the selector test never fires, and
the other tests and the next state are the same. -/
theorem runRow_eq_cycleOfVector (row : RomRow) (w : Word) (s : State) :
    runRow row (fieldsOf w) s = cycleOfVector (romCtl s.params row) w s := by
  have hsel : ¬7 < (romCtl s.params row).aluOp.toNat := by
    have := (romCtl s.params row).aluOp.isLt; omega
  rw [runRow_eq, rowNext, writeback_eq]
  simp only [cycleOfVector, if_neg hsel]
  rfl

/-- Settles O14: both sides take the fetch fault, the sentinel, a word without a row and a row alike. -/
theorem stepIsTheSingleCycle : Obligations.StepIsTheSingleCycle := by
  intro s
  unfold singleCycle
  by_cases hk : s.params.memWords ≤ wordIndex s.pc
  · rw [if_pos hk, step_fetch_fault hk]
  rw [if_neg hk]
  have hpc : wordIndex s.pc < s.params.memWords := Nat.lt_of_not_le hk
  by_cases hw : fetchedWord s = 0#32
  · rw [step_zero hpc hw]; exact (if_pos hw).symm
  · cases hrow : fetchedRow s with
    | none => simp only [step_noRow hpc hw hrow, if_neg hw, hrow]; rfl
    | some row => simp only [step_row hpc hw hrow, if_neg hw, hrow, runRow_eq_cycleOfVector]

/-- Settles O10: the bytes at the pc decode to the instruction of the fetched word. -/
theorem stepRunsDecodedInstruction : Obligations.StepRunsDecodedInstruction := by
  intro s i hpc hdec
  rw [decodeBytes_fetchBytes] at hdec
  cases hdec
  exact step_fetched hpc

/-- Settles O13: the sentinel's halt, and the step by the row of the fetched word. -/
theorem zeroWordHaltsTheCycle : Obligations.ZeroWordHaltsTheCycle := by
  refine ⟨fun _ => rfl, fun s hpc => ⟨fun hw => step_zero hpc hw, fun hw => ?_⟩⟩
  cases hrow : fetchedRow s with
  | none => simp only [step_noRow hpc hw hrow, hrow]; rfl
  | some row => simp only [step_row hpc hw hrow, hrow, exec_instrOfRow]

end Sys2Proof.Machine
end

section
/-! The clock edge on the unit ports (spec/40_datapath.md R145, R146). -/

namespace Sys2Proof.Machine

/-! ### The clock edge by its deciding stop signal -/

section
variable (u : Undriven) (s : State)

theorem ports_commit : (ports u s).orch.commit = (ports u s).stops.deciding.isNone := orchestrate_commit _

theorem clockEdge_halt {sig : StopSignal} {c : HaltCause} (hd : (ports u s).stops.deciding = some sig)
    (hc : sig.cause = some c) : clockEdge (ports u s) s = takeHalt c s := by
  have hreason : sig.reason s.pc (ports u s).aluRes = none := by
    cases sig with
    | faultFetch => cases hc
    | faultMem => cases hc
    | _ => rfl
  have hcommit : (ports u s).orch.commit = false := by rw [ports_commit, hd]; rfl
  rw [clockEdge, edgeState_stopped hcommit, hd]
  simp only [Option.bind_some, hreason, hc]
  rfl

theorem clockEdge_fault {sig : StopSignal} {r : Fault} (hd : (ports u s).stops.deciding = some sig)
    (hr : sig.reason s.pc (ports u s).aluRes = some r) : clockEdge (ports u s) s = .fault r := by
  rw [clockEdge, hd]
  simp only [Option.bind_some, hr]

theorem clockEdge_completes (hd : (ports u s).stops.deciding = none) :
    clockEdge (ports u s) s = .next (edgeState (ports u s) s) := by
  rw [clockEdge, hd]
  rfl

/-! ### The signals of the units -/

theorem ports_nextPc :
    (ports u s).nextPc =
      pcUpdate s.pc (ports u s).fields.target (sext32 (ports u s).fields.imm) (ports u s).ctl (ports u s).zero := rfl

theorem ports_wa : (ports u s).wa = writeIndex (ports u s).ctl (ports u s).fields := rfl

theorem ports_wd : (ports u s).wd = writeValue (ports u s).ctl (ports u s).memdata (ports u s).aluRes := rfl

theorem ports_we : (ports u s).we = (ports u s).ctl.regWrite := rfl

theorem ports_dmemWe : (ports u s).dmemWe = (ports u s).ctl.memWrite := rfl

theorem ports_dmemWdata : (ports u s).dmemWdata = regRead s.x (ports u s).fields.rt := rfl

/-- MAU's index is the word index of the ALU result (R125). -/
@[simp] theorem ports_dmemIndex : (ports u s).dmemIndex.toNat = wordIndex (ports u s).aluRes :=
  extractLsb'_toNat_eq_wordIndex _

theorem stops_faultFetch : (ports u s).stops.faultFetch = decide (s.params.memWords ≤ wordIndex s.pc) := by
  rw [← extractLsb'_toNat_eq_wordIndex]
  rfl

theorem stops_haltFetch : (ports u s).stops.haltFetch = ((ports u s).instr == 0#32) := rfl

theorem stops_haltDecode : (ports u s).stops.haltDecode = (romRow s.params (ports u s).eop).isNone := rfl

@[simp] theorem stops_haltAlu : (ports u s).stops.haltAlu = false := rfl

theorem stops_haltMem :
    (ports u s).stops.haltMem =
      (haltTestApplies s.params (ports u s).ctl && wordIndex (ports u s).aluRes == s.params.haltIndex) := by
  rw [← ports_dmemIndex]
  rfl

theorem stops_faultMem :
    (ports u s).stops.faultMem =
      (((ports u s).ctl.memRead || (ports u s).ctl.memWrite) &&
        !decide (wordIndex (ports u s).aluRes < s.params.memWords)) := by
  rw [← ports_dmemIndex]
  rfl

/-- The undriven data of the memory port is not handed on by a read inside the array (R125). -/
theorem ports_memdata
    (hin : (ports u s).ctl.memRead = true → wordIndex (ports u s).aluRes < s.params.memWords) :
    (ports u s).memdata =
      if (ports u s).ctl.memRead then s.mem.readWord (wordIndex (ports u s).aluRes) else 0#32 := by
  have hmemdata : (ports u s).memdata =
      if (ports u s).ctl.memRead then
        if decide ((ports u s).dmemIndex.toNat < s.params.memWords) then s.mem.readWord (ports u s).dmemIndex.toNat
        else u.dmemRdata
      else 0#32 := rfl
  rw [hmemdata, ports_dmemIndex]
  split
  · next hr => rw [if_pos (decide_eq_true (hin hr))]
  · rfl

end

/-! ### The signals of a cycle that fetches inside memory -/

section
variable (u : Undriven) {s : State} (hpc : wordIndex s.pc < s.params.memWords)
include hpc

theorem ports_instr : (ports u s).instr = fetchedWord s := by
  have hinstr : (ports u s).instr =
      if (ports u s).stops.faultFetch then u.imemRdata else s.mem.readWord (s.pc.extractLsb' 2 30).toNat := rfl
  rw [hinstr, stops_faultFetch, extractLsb'_toNat_eq_wordIndex, if_neg (by simpa using hpc)]

theorem ports_fields : (ports u s).fields = fieldsOf (fetchedWord s) := congrArg fieldsOf (ports_instr u hpc)

theorem ports_row : romRow s.params (ports u s).eop = fetchedRow s :=
  congrArg (fun w => romRow s.params (resolve s.params (opOf w) (functOf w))) (ports_instr u hpc)

variable {row : RomRow} (hrow : fetchedRow s = some row)
include hrow

theorem ports_ctl : (ports u s).ctl = romCtl s.params row := by
  have hctl : (ports u s).ctl = ((romRow s.params (ports u s).eop).map (romCtl s.params)).getD u.ctl := rfl
  rw [hctl, ports_row u hpc, hrow]
  rfl

/-- The ALU's outputs on the ports are those of the row's cycle (R123). -/
theorem ports_alu : AluOut.mk (ports u s).aluRes (ports u s).zero = rowAlu row (fieldsOf (fetchedWord s)) s := by
  rw [rowAlu, ← ports_ctl u hpc hrow, ← ports_fields u hpc]
  rfl

theorem ports_aluRes : (ports u s).aluRes = (rowAlu row (fieldsOf (fetchedWord s)) s).result :=
  congrArg AluOut.result (ports_alu u hpc hrow)

theorem ports_zero : (ports u s).zero = (rowAlu row (fieldsOf (fetchedWord s)) s).zero :=
  congrArg AluOut.zero (ports_alu u hpc hrow)

end

/-! ### The deciding signal (R146), in the order of the stages -/

section
variable (u : Undriven) {s : State}

theorem deciding_fetchFault (hk : s.params.memWords ≤ wordIndex s.pc) :
    (ports u s).stops.deciding = some .faultFetch := by
  simp [StopLines.deciding, stops_faultFetch, hk]

variable (hpc : wordIndex s.pc < s.params.memWords)
include hpc

theorem deciding_zero (hw : fetchedWord s = 0#32) : (ports u s).stops.deciding = some .haltFetch := by
  simp [StopLines.deciding, stops_faultFetch, stops_haltFetch, ports_instr u hpc, hpc, hw]

theorem deciding_noRow (hw : fetchedWord s ≠ 0#32) (hrow : fetchedRow s = none) :
    (ports u s).stops.deciding = some .haltDecode := by
  simp [StopLines.deciding, stops_faultFetch, stops_haltFetch, stops_haltDecode, ports_instr u hpc, ports_row u hpc,
    hpc, hw, hrow]

variable {row : RomRow} (hw : fetchedWord s ≠ 0#32) (hrow : fetchedRow s = some row)
include hw hrow

theorem deciding_row :
    (ports u s).stops.deciding =
      if rowHalts row (fieldsOf (fetchedWord s)) s then some .haltMem
      else if rowFaults row (fieldsOf (fetchedWord s)) s then some .faultMem
      else none := by
  simp [StopLines.deciding, stops_faultFetch, stops_haltFetch, stops_haltDecode, stops_haltMem, stops_faultMem,
    ports_instr u hpc, ports_row u hpc, ports_ctl u hpc hrow, ports_aluRes u hpc hrow, Nat.not_le.2 hpc,
    hw, hrow, rowHalts, rowFaults]

end

/-- The edge of a row's cycle without a stop loads the row's next state (R141, R145). -/
theorem edgeState_row (u : Undriven) {s : State} {row : RomRow} (hpc : wordIndex s.pc < s.params.memWords)
    (hrow : fetchedRow s = some row) (hf : ¬rowFaults row (fieldsOf (fetchedWord s)) s)
    (hd : (ports u s).stops.deciding = none) :
    edgeState (ports u s) s = rowNext row (fieldsOf (fetchedWord s)) s := by
  have hcommit : (ports u s).orch.commit = true := by rw [ports_commit, hd]; rfl
  have hmemdata : (ports u s).memdata = rowMemdata row (fieldsOf (fetchedWord s)) s := by
    rw [ports_memdata, ports_ctl u hpc hrow, ports_aluRes u hpc hrow, rowMemdata]
    rw [ports_ctl u hpc hrow, ports_aluRes u hpc hrow]
    exact fun hr => Nat.lt_of_not_le fun hk => hf ⟨by simp [hr], hk⟩
  rw [edgeState_committed hcommit, hd, ports_nextPc, ports_wa, ports_wd, ports_we, ports_dmemWe, ports_dmemWdata,
    hmemdata, ports_dmemIndex, ports_ctl u hpc hrow, ports_fields u hpc, ports_aluRes u hpc hrow,
    ports_zero u hpc hrow]
  rfl

/-- Settles O15: in each case of the cycle the first asserted signal is the stop that the step takes, and without one
the edge loads the row's next state. -/
theorem clockEdgeRealisesStep : Obligations.ClockEdgeRealisesStep := by
  intro u s
  by_cases hk : s.params.memWords ≤ wordIndex s.pc
  · rw [step_fetch_fault hk, clockEdge_fault u s (deciding_fetchFault u hk) rfl]
  have hpc : wordIndex s.pc < s.params.memWords := Nat.lt_of_not_le hk
  by_cases hw : fetchedWord s = 0#32
  · rw [step_zero hpc hw, clockEdge_halt u s (deciding_zero u hpc hw) rfl]
  cases hrow : fetchedRow s with
  | none => rw [step_noRow hpc hw hrow, clockEdge_halt u s (deciding_noRow u hpc hw hrow) rfl]
  | some row =>
    have hd := deciding_row u hpc hw hrow
    rw [step_row hpc hw hrow, runRow_eq]
    split at hd
    · next hh => rw [if_pos hh, clockEdge_halt u s hd rfl]; rfl
    · next hh =>
      rw [if_neg hh]
      split at hd
      · next hf => rw [if_pos hf, clockEdge_fault u s hd rfl, ports_aluRes u hpc hrow]
      · next hf => rw [if_neg hf, clockEdge_completes u s hd, edgeState_row u hpc hrow hf hd]

/-! ### The outputs of ORCH (R143, R146) -/

section
variable (q : Ports) (s : State)

/-- The outcome's halt output is that of the deciding signal, whose cause the next state carries. -/
theorem haltOutput_clockEdge :
    haltOutput (clockEdge q s) = q.stops.deciding.any StopSignal.isHalt := by
  rw [clockEdge]
  cases hd : q.stops.deciding with
  | none => simp [haltOutput, nextOf, edgeState, hd]
  | some sig =>
    cases sig <;>
      simp [haltOutput, nextOf, edgeState, hd, StopSignal.reason, StopSignal.isHalt, StopSignal.cause]

theorem faultOutput_clockEdge :
    faultOutput (clockEdge q s) = q.stops.deciding.any (fun sig => !sig.isHalt) := by
  rw [clockEdge]
  cases q.stops.deciding with
  | none => rfl
  | some sig => cases sig <;> rfl

theorem clockEdge_next {t : State} (h : clockEdge q s = .next t) : t = edgeState q s := by
  rw [clockEdge] at h
  split at h
  · cases h
  · cases h; rfl

end

/-- Settles O16: the step is the clock edge, whose outcome and ORCH both read the deciding signal. -/
theorem outputsFollowTheDecidingSignal : Obligations.OutputsFollowTheDecidingSignal := by
  intro u s
  have hstep : step s = clockEdge (ports u s) s := (clockEdgeRealisesStep u s).symm
  dsimp only
  rw [hstep, ports_commit, ports_orch, orchestrate_halt, orchestrate_fault]
  refine ⟨(haltOutput_clockEdge ..).symm, (faultOutput_clockEdge ..).symm, ?_, ?_, ?_, fun t ht => ?_⟩
  · simp only [Option.any_eq_true, StopSignal.isHalt, Option.isSome_iff_exists, exists_and_left]
  · simp only [Option.any_eq_true, ← StopSignal.reason_isSome _ s.pc (ports u s).aluRes, Option.isSome_iff_exists,
      exists_and_left]
  · rw [Option.isNone_iff_eq_none, StopLines.deciding_eq_none]
  · rw [clockEdge_next _ _ ht]; rfl

/-- Settles O50: the step stops exactly when some signal decides, which is when `commit` is 0. -/
theorem stopGatesEveryLoad : Obligations.StopGatesEveryLoad := by
  intro u s
  have hstep : step s = clockEdge (ports u s) s := (clockEdgeRealisesStep u s).symm
  dsimp only
  rw [hstep, haltOutput_clockEdge, faultOutput_clockEdge]
  cases hd : (ports u s).stops.deciding with
  | none =>
    have hcommit : (ports u s).orch.commit = true := by rw [ports_commit, hd]; rfl
    refine ⟨by simp, fun _ _ => ?_⟩
    rw [clockEdge_completes u s hd, edgeState_committed hcommit]
    exact ⟨rfl, rfl, rfl, rfl⟩
  | some sig =>
    have hcommit : (ports u s).orch.commit = false := by rw [ports_commit, hd]; rfl
    rw [edgeState_stopped hcommit]
    refine ⟨fun _ => ⟨rfl, rfl, rfl⟩, fun hhalt hfault => ?_⟩
    rw [Option.any_some] at hhalt hfault
    rw [hhalt] at hfault
    cases hfault

end Sys2Proof.Machine
end

section
/-! Halts (spec/40_datapath.md R124, R126, R142 to R144). -/

namespace Sys2Proof.Machine

@[simp] theorem rowNext_halt (row : RomRow) (f : Fields) (s : State) : (rowNext row f s).halt = none :=
  State.commit_halt ..

/-- A step whose next state carries a cause is that halt, taken at the state before; the cause is not `BadALUOp`. -/
theorem step_halted {s t : State} {c : HaltCause} (h : step s = .next t) (hc : t.halt = some c) :
    c ≠ .badALUOp ∧ t = s.markHalt c := by
  obtain ⟨_, hexec⟩ := step_next h
  rcases exec_next hexec with ⟨d, hd, rfl⟩ | ⟨row, f, _, rfl⟩
  · cases hc; exact ⟨hd, rfl⟩
  · cases hc

/-- Settles O22: the state of a taken halt differs in the halt output alone. -/
theorem haltCommitsNothing : Obligations.HaltCommitsNothing := by
  intro s t c h hc
  obtain ⟨_, rfl⟩ := step_halted h hc
  exact ⟨rfl, rfl, rfl, rfl⟩

/-- No meaning reads the halt output of the cycle before (R144). -/
theorem exec_ignores_halt (i : Instr) (s : State) (h : Option HaltCause) : exec i { s with halt := h } = exec i s := by
  rcases exec_cases i with ⟨row, f, hr⟩ | ⟨c, _, hr⟩ <;> rw [hr, hr]
  · rw [runRow_eq, runRow_eq]; rfl
  · rfl

theorem step_ignores_halt (s : State) (h : Option HaltCause) : step { s with halt := h } = step s := by
  have hfetch : fetch { s with halt := h } = fetch s := rfl
  rw [step, step, hfetch]
  split
  · rfl
  · exact exec_ignores_halt ..

/-- Settles O23: a halted state is the state before but for the halt output, which no step reads. -/
theorem haltIsFixedPointWithoutLatch : Obligations.HaltIsFixedPointWithoutLatch := by
  refine ⟨fun s t c h hc => ?_, step_ignores_halt⟩
  obtain ⟨_, ht⟩ := step_halted h hc
  calc step t = step (s.markHalt c) := by rw [ht]
    _ = step s := step_ignores_halt s (some c)
    _ = .next t := h

/-- Settles O24: a 3-bit selector passes the test of dispatch, and no halt that a step takes has this cause. -/
theorem badAluOpNeverOccurs : Obligations.BadAluOpNeverOccurs :=
  ⟨fun ctl rd1 rd2 ext => ⟨_, aluDispatch_eq ctl rd1 rd2 ext⟩, fun _ _ h hc => (step_halted h hc).1 rfl⟩

/-- A row without a memory access completes when the halt-index test is limited to accesses (R126). -/
theorem runRow_no_access {row : RomRow} {s : State} (hall : s.params.haltCheckAll = false)
    (hr : (romCtl s.params row).memRead = false) (hw : (romCtl s.params row).memWrite = false) (f : Fields) :
    ∃ t, runRow row f s = .next t ∧ t.halt = none := by
  have hhalts : ¬rowHalts row f s := fun ⟨h, _⟩ => by simp [haltTestApplies, hall, hr, hw] at h
  have hfaults : ¬rowFaults row f s := fun ⟨h, _⟩ => by simp [hr, hw] at h
  exact ⟨rowNext row f s, by rw [runRow_eq, if_neg hhalts, if_neg hfaults], rowNext_halt ..⟩

/-- Settles O28: the rows of the seven instructions have MemRead and MemWrite clear. -/
theorem noHaltTestWithoutAccess : Obligations.NoHaltTestWithoutAccess := by
  intro s hall
  have hcompletes {row : RomRow} := runRow_no_access (row := row) hall
  exact ⟨fun _ _ _ => hcompletes (row := .addi) rfl rfl _, fun _ _ _ => hcompletes (row := .lui) rfl rfl _,
    fun _ _ _ => hcompletes (row := .beq) rfl rfl _, fun _ => hcompletes (row := .j) rfl rfl _,
    fun _ _ _ _ _ => hcompletes (row := .add) rfl rfl _, fun _ _ _ _ => hcompletes (row := .slt) rfl rfl _,
    fun _ _ _ _ => hcompletes (row := .sltu) rfl rfl _⟩

end Sys2Proof.Machine
end

section
/-! The units: the ALU, the sign extender and the program counter update (spec/40_datapath.md R100 to R110, R130 to
R132), and where a jump goes. -/

namespace Sys2Proof.Machine

/-! ### ALU and sign extender -/

theorem zeroFlag_iff (result : Word) : zeroFlag result = true ↔ result = 0#32 := beq_iff_eq

/-- Two's-complement subtraction as the adder makes it (R102). -/
theorem sub_eq_add_not_add_one (a b : Word) : a - b = a + ~~~b + 1#32 := by
  rw [BitVec.sub_eq_add_neg, BitVec.neg_eq_not_add, BitVec.add_assoc]

theorem boolWord_slt (a b : Word) : boolWord (a.slt b) = if a.toInt < b.toInt then 1#32 else 0#32 := by
  simp [boolWord, BitVec.slt_iff_toInt_lt]

theorem boolWord_ult (a b : Word) : boolWord (a.ult b) = if a.toNat < b.toNat then 1#32 else 0#32 := by
  simp [boolWord, BitVec.ult_iff_lt, BitVec.lt_def]

/-- Settles O29: each selector's result by the law of its operation, and the zero flag by its own. -/
theorem aluOperationsAsSpecified : Obligations.AluOperationsAsSpecified := by
  intro a b
  refine ⟨BitVec.toNat_add a b, sub_eq_add_not_add_one a b, ?_, boolWord_slt a b, boolWord_ult a b, fun i => ?_,
    fun i => ?_, ?_, fun i hi => ?_, fun sel => zeroFlag_iff _⟩
  · simp only [alu_zero, aluResult_sub, zeroFlag_sub, beq_iff_eq]
  · exact BitVec.getLsbD_and
  · exact BitVec.getLsbD_or
  · exact BitVec.shiftLeft_eq_concat_of_lt (x := b) (n := 16) (by decide)
  · simp [hi]

/-- Settles O30: sign extension puts sixteen copies of the top bit above the value. -/
theorem signExtenderRepeatsBit15 : Obligations.SignExtenderRepeatsBit15 :=
  fun v => BitVec.signExtend_eq_append_of_le (x := v) (v := 32) (by decide)

/-! ### The next pc (R130 to R132) -/

section
variable (pc ext : Word) (target : Target) {ctl : Ctl} {zero : Bool}

theorem pcUpdate_taken (h : ctl.branch = true ∧ zero = true) :
    pcUpdate pc target ext ctl zero = pc + ext * 4#32 + 4#32 := by
  rw [pcUpdate, if_pos (by simpa using h), shiftLeft_two]

theorem pcUpdate_jump (h : ¬(ctl.branch = true ∧ zero = true)) (hj : ctl.jump = true) :
    pcUpdate pc target ext ctl zero = jumpTarget target := by
  rw [pcUpdate, if_neg (by simpa using h), if_pos hj]

theorem pcUpdate_next (h : ¬(ctl.branch = true ∧ zero = true)) (hj : ctl.jump = false) :
    pcUpdate pc target ext ctl zero = pc + 4#32 := by
  rw [pcUpdate, if_neg (by simpa using h), if_neg (by simp [hj])]

end

/-- No row sets Branch and Jump (R81, R131). -/
theorem romCtl_not_branch_and_jump (p : Params) (row : RomRow) :
    ¬((romCtl p row).branch = true ∧ (romCtl p row).jump = true) := by
  cases row <;> simp [romCtl]

/-- Settles O34: the three sources of the next pc, and the rows of the ROM. -/
theorem nextPcHasOneSource : Obligations.NextPcHasOneSource := by
  refine ⟨fun ctl pc ext target zero => ⟨fun h => ?_, fun h hj => ?_, fun h hj => ?_⟩,
    romCtl_not_branch_and_jump⟩
  · exact pcUpdate_taken pc ext target h
  · rw [pcUpdate_jump pc ext target h hj, jumpTarget_toNat]
  · exact pcUpdate_next pc ext target h hj

/-! ### Jumps (R132, R181) -/

theorem wordIndex_jumpTarget (target : Target) : wordIndex (jumpTarget target) = target.toNat := by
  rw [wordIndex_eq_div, jumpTarget_toNat]
  omega

/-- A jump changes no state element but the pc (R181). -/
theorem rowNext_j (target : Target) (s : State) :
    rowNext .j (jFormat target) s = s.commit (jumpTarget target) s.x s.mem := by
  simp [rowNext, rowMem, romCtl, pcUpdate, writeback]

theorem rowAlu_j (target : Target) (s : State) :
    (rowAlu .j (jFormat target) s).result = jumpAluResult s target := by
  simp [rowAlu, romCtl, operandB, jumpAluResult]

/-- A jump halts in the halt window of its ALU result, and else goes to its target (R181, R185). -/
theorem exec_j (target : Target) (s : State) :
    exec (.j target) s =
      if inHaltWindow s (jumpAluResult s target) then .next (s.markHalt .haltAddress)
      else .next (s.commit (jumpTarget target) s.x s.mem) := by
  have hrun : exec (.j target) s = runRow .j (jFormat target) s := rfl
  rw [hrun, runRow_eq, rowNext_j]
  simp [rowHalts, rowFaults, haltTestApplies, romCtl, rowAlu_j, inHaltWindow]

/-- A jump that answers a state without a halt went to its target, outside the halt window. -/
theorem exec_j_completes {target : Target} {s t : State} (h : exec (.j target) s = .next t) (ht : t.halt = none) :
    ¬inHaltWindow s (jumpAluResult s target) ∧ t = s.commit (jumpTarget target) s.x s.mem := by
  rw [exec_j] at h
  split at h
  · cases h; cases ht
  · next hw => cases h; exact ⟨hw, rfl⟩

/-- Settles O44: neither the halt window nor the next state of a jump reads the pc. -/
theorem jumpIgnoresCurrentPc : Obligations.JumpIgnoresCurrentPc := by
  intro s t u v target hst hu hv hhalt
  obtain ⟨hp, hx, hm, _⟩ := hst
  obtain ⟨hwin, rfl⟩ := exec_j_completes hu hhalt
  have hwin' : ¬inHaltWindow t (jumpAluResult t target) := by
    simpa only [inHaltWindow, jumpAluResult, hp, hx] using hwin
  have hlt := target.isLt
  refine ⟨?_, jumpTarget_toNat target, ?_, fun hout => step_fetch_fault ?_⟩
  · rw [exec_j, if_neg hwin'] at hv
    cases hv
    simp only [State.commit, hp, hx, hm]
  · rw [State.commit_pc, jumpTarget_toNat]
    omega
  · rwa [State.commit_pc, wordIndex_jumpTarget]

end Sys2Proof.Machine
end

section
/-! The state elements that one cycle may change (spec/30_encoding.md R81, spec/40_datapath.md R141). -/

namespace Sys2Proof.Machine

/-- No row writes a register and memory in one cycle (R81). -/
theorem romCtl_not_both_writes (p : Params) (row : RomRow) :
    ¬((romCtl p row).regWrite = true ∧ (romCtl p row).memWrite = true) := by
  cases row <;> simp [romCtl]

/-- A completed row leaves the registers or the memory as they were. -/
theorem rowNext_x_or_mem (row : RomRow) (f : Fields) (s : State) :
    (rowNext row f s).x = s.x ∨ (rowNext row f s).mem = s.mem := by
  cases hw : (romCtl s.params row).regWrite with
  | false => exact .inl (by rw [rowNext_x, hw, regWrite_false])
  | true =>
    have hmw : (romCtl s.params row).memWrite = false :=
      Bool.eq_false_iff.2 fun hmw => romCtl_not_both_writes _ _ ⟨hw, hmw⟩
    exact .inr (by simp [rowMem, hmw])

theorem exec_next_x_or_mem {i : Instr} {s t : State} (h : exec i s = .next t) : t.x = s.x ∨ t.mem = s.mem := by
  rcases exec_next h with ⟨c, _, rfl⟩ | ⟨row, f, _, rfl⟩
  · exact .inl rfl
  · exact rowNext_x_or_mem row f s

/-- All the memory words that a meaning changes are one word. -/
theorem exec_changes_one_word {i : Instr} {s t : State} (h : exec i s = .next t) :
    ∃ d, ∀ k, t.mem.readWord k ≠ s.mem.readWord k → k = d := by
  rcases exec_next_mem h with hm | ⟨d, v, _, hm⟩ <;> rw [hm]
  · exact ⟨0, fun _ hk => absurd rfl hk⟩
  · exact ⟨d, fun k hk => by_contra fun hne => hk (Memory.readWord_writeWord_ne _ v hne)⟩

/-- Settles O47: the meaning of the fetched word stores at most one word, and then writes no register. -/
theorem atMostOneWordChangesAndNeverBoth : Obligations.AtMostOneWordChangesAndNeverBoth := by
  intro s t h
  obtain ⟨_, hexec⟩ := step_next h
  obtain ⟨d, hd⟩ := exec_changes_one_word hexec
  exact ⟨fun k l hk hl => (hd k hk).trans (hd l hl).symm, exec_next_x_or_mem hexec⟩

end Sys2Proof.Machine
end

section
/-! The ALU instructions (spec/41_alu_instructions.md R150 to R155): one lemma for the five rows that write an ALU
result to a register, then each instruction by its ALU result. -/

namespace Sys2Proof.Machine

/-! ### The cycle of an ALU instruction (R126, R150) -/

/-- The cycle of an instruction that writes its ALU result `v` to register `r` and accesses no memory. -/
def aluCycle (s : State) (r : RegIdx) (v : Word) : Host.Outcome State Fault Refusal :=
  if inHaltWindow s v then .next (s.markHalt .haltAddress)
  else .next (s.commit (s.pc + 4#32) (regSet s.x r v) s.mem)

theorem aluCycle_spec (s : State) (r : RegIdx) (v : Word) :
    (¬inHaltWindow s v →
      aluCycle s r v = .next { s with x := regSet s.x r v, pc := s.pc + 4#32, halt := none }) ∧
    (inHaltWindow s v → aluCycle s r v = .next { s with halt := some .haltAddress }) :=
  ⟨fun h => if_neg h, fun h => if_pos h⟩

/-- A row whose vector sets RegWrite and no other flag than RegDst and ALUSrc writes its ALU result (R81, R140). -/
theorem runRow_eq_aluCycle {row : RomRow} {s : State} {regDst aluSrc : Bool} {aluOp : BitVec 3}
    (h : romCtl s.params row = ⟨regDst, false, false, false, false, false, aluSrc, true, aluOp⟩) (f : Fields) :
    runRow row f s =
      aluCycle s (if regDst then f.rd else f.rt)
        (aluResult (regRead s.x f.rs) (if aluSrc then sext32 f.imm else regRead s.x f.rt) aluOp) := by
  have halu : (rowAlu row f s).result =
      aluResult (regRead s.x f.rs) (if aluSrc then sext32 f.imm else regRead s.x f.rt) aluOp := by
    rw [rowAlu, h, alu_result, operandB]
  have hnext : rowNext row f s =
      s.commit (s.pc + 4#32) (regSet s.x (if regDst then f.rd else f.rt) (rowAlu row f s).result) s.mem := by
    simp [rowNext, rowMem, h, pcUpdate, writeback, writeIndex, writeValue]
  have hhalts : rowHalts row f s ↔ inHaltWindow s (rowAlu row f s).result := by
    simp [rowHalts, haltTestApplies, h]
  have hfaults : ¬rowFaults row f s := by simp [rowFaults, h]
  rw [runRow_eq, if_neg hfaults, hnext, ← halu, aluCycle]
  exact if_congr hhalts rfl rfl

/-! ### Each instruction by its ALU result (R151 to R155) -/

section
variable (rs rt rd : RegIdx) (shamt : Shamt) (funct : Funct) (imm : Imm) (s : State)

theorem exec_addi : exec (.addi rs rt imm) s = aluCycle s rt (regRead s.x rs + imm.signExtend 32) :=
  (runRow_eq_aluCycle rfl (iFormat rs rt imm)).trans (by simp [sext32])

theorem exec_add : exec (.add rs rt rd shamt funct) s = aluCycle s rd (regRead s.x rs + regRead s.x rt) :=
  (runRow_eq_aluCycle rfl (rFormat rs rt rd shamt funct)).trans (by simp)

theorem exec_slt :
    exec (.slt rs rt rd shamt) s =
      aluCycle s rd (if (regRead s.x rs).toInt < (regRead s.x rt).toInt then 1#32 else 0#32) :=
  (runRow_eq_aluCycle rfl (rFormat rs rt rd shamt 0x2A#6)).trans (by simp [boolWord_slt])

theorem exec_sltu :
    exec (.sltu rs rt rd shamt) s =
      aluCycle s rd (if (regRead s.x rs).toNat < (regRead s.x rt).toNat then 1#32 else 0#32) :=
  (runRow_eq_aluCycle rfl (rFormat rs rt rd shamt 0x2B#6)).trans (by simp [boolWord_ult])

theorem exec_lui : exec (.lui rs rt imm) s = aluCycle s rt (imm ++ 0x0000#16) :=
  (runRow_eq_aluCycle rfl (iFormat rs rt imm)).trans (by simp [sext32_shiftLeft_16])

end

/-- A compare's result has word index 0, the halt index of a memory without words alone (R47, log 19). -/
theorem inHaltWindow_compare_iff (s : State) (c : Prop) [Decidable c] :
    inHaltWindow s (if c then 1#32 else 0#32) ↔ s.params.haltCheckAll = true ∧ s.params.memWords = 0 := by
  have hidx : wordIndex (if c then 1#32 else 0#32) = 0 := by split <;> rfl
  rw [inHaltWindow, hidx, eq_comm (a := 0)]

/-- A compare's cycle completes unless the halt-index test covers it and memory has no word (R153, R154). -/
theorem aluCycle_compare_spec (s : State) (r : RegIdx) (c : Prop) [Decidable c] :
    let v := if c then 1#32 else 0#32
    (0 < s.params.memWords ∨ s.params.haltCheckAll = false →
      aluCycle s r v = .next { s with x := regSet s.x r v, pc := s.pc + 4#32, halt := none }) ∧
    (s.params.memWords = 0 → s.params.haltCheckAll = true →
      aluCycle s r v = .next { s with halt := some .haltAddress }) := by
  intro v
  obtain ⟨hcompletes, hhalts⟩ := aluCycle_spec s r v
  have hwin : inHaltWindow s v ↔ s.params.haltCheckAll = true ∧ s.params.memWords = 0 := inHaltWindow_compare_iff s c
  refine ⟨fun h => hcompletes fun hv => ?_, fun h0 hall => hhalts (hwin.2 ⟨hall, h0⟩)⟩
  obtain ⟨hall, h0⟩ := hwin.1 hv
  rcases h with hpos | hoff
  · exact hpos.ne' h0
  · exact absurd hall (by simp [hoff])

/-- The shamt of a word lies inside its immediate field (R62). -/
theorem immOf_shamt (w : Word) : (immOf w).extractLsb' 6 5 = shamtOf w := by
  apply BitVec.eq_of_toNat_eq
  simp only [immOf, shamtOf, BitVec.extractLsb'_toNat, Nat.shiftRight_eq_div_pow]
  omega

theorem shamtOf_encodeI (op : Opcode) (rs rt : RegIdx) (imm : Imm) :
    shamtOf (encodeI op rs rt imm) = imm.extractLsb' 6 5 := by
  rw [← immOf_shamt, immOf_encodeI]

/-! ### The obligations -/

/-- Settles O35: the cycle by its ALU result, and the rewrite of R71 by the low six bits of the immediate. -/
theorem addiAddsImmediate : Obligations.AddiAddsImmediate := by
  intro rs rt imm s v
  rw [exec_addi]
  obtain ⟨hcompletes, hhalts⟩ := aluCycle_spec s rt v
  have hfunct : functOf (encode (.addi rs rt imm)) = imm.extractLsb' 0 6 := functOf_encodeI ..
  have hrewrite (ha : s.params.aliasRequiresOp0 = false) :=
    (rewriteFollowsAliasRequiresOp0.2 s.params (encode (.addi rs rt imm))).1 (.inl ha)
  refine ⟨rfl, rfl, hcompletes, hhalts, fun ha hf => ?_, fun ha hf => ?_⟩
  · rw [(hrewrite ha).1 (hfunct.trans hf)]
    simp [encode, shamtOf_encodeI]
  · rw [(hrewrite ha).2 (hfunct.trans hf)]
    simp [encode, shamtOf_encodeI]

/-- Settles O36: the row takes both operands from registers and names `rd`. -/
theorem addAddsRegisters : Obligations.AddAddsRegisters := by
  intro rs rt rd shamt funct s v
  rw [exec_add]
  exact ⟨rfl, rfl, aluCycle_spec s rd v⟩

/-- Settles O37: the signed comparison's result is in the halt window of a memory without words alone. -/
theorem sltComparesSigned : Obligations.SltComparesSigned := by
  intro rs rt rd shamt s v
  rw [exec_slt]
  exact ⟨rfl, rfl, aluCycle_compare_spec s rd _⟩

/-- Settles O38: the unsigned comparison's result is in the halt window of a memory without words alone. -/
theorem sltuComparesUnsigned : Obligations.SltuComparesUnsigned := by
  intro rs rt rd shamt s v
  rw [exec_sltu]
  exact ⟨rfl, rfl, aluCycle_compare_spec s rd _⟩

/-- Settles O39: the sign extension is shifted out, and the row's ALU operation does not read `x[rs]`. -/
theorem luiLoadsUpperHalf : Obligations.LuiLoadsUpperHalf := by
  intro rs rt imm s v
  rw [exec_lui]
  exact ⟨rfl, rfl, aluCycle_spec s rt v⟩

end Sys2Proof.Machine
end

section
/-! `lw` and `sw` by the place of their word index: below the halt index, at it and above it
(spec/42_load_store.md R170, R171). -/

namespace Sys2Proof.Machine

/-- The cycle of an access to address `addr` that leads to `t` when it completes (R125). -/
def accessCycle (s : State) (addr : Word) (t : State) : Host.Outcome State Fault Refusal :=
  if wordIndex addr = s.params.haltIndex then .next (s.markHalt .haltAddress)
  else if s.params.memWords ≤ wordIndex addr then .fault (.memOutOfRange addr)
  else .next t

theorem accessCycle_spec (s : State) (addr : Word) (t : State) :
    (wordIndex addr < s.params.memWords → accessCycle s addr t = .next t) ∧
    (wordIndex addr = s.params.haltIndex → accessCycle s addr t = .next { s with halt := some .haltAddress }) ∧
    (s.params.haltIndex < wordIndex addr → accessCycle s addr t = .fault (.memOutOfRange addr)) := by
  refine ⟨fun hbelow => ?_, fun hat => if_pos hat, fun habove => ?_⟩
  · rw [accessCycle, if_neg hbelow.ne, if_neg hbelow.not_ge]
  · rw [accessCycle, if_neg habove.ne', if_pos habove.le]

theorem exec_lw_eq_accessCycle (rs rt : RegIdx) (imm : Imm) (s : State) :
    exec (.lw rs rt imm) s = accessCycle s (regRead s.x rs + imm.signExtend 32)
      (s.commit (s.pc + 4#32)
        (regSet s.x rt (s.mem.readWord (wordIndex (regRead s.x rs + imm.signExtend 32)))) s.mem) :=
  exec_lw rs rt imm s

theorem exec_sw_eq_accessCycle (rs rt : RegIdx) (imm : Imm) (s : State) :
    exec (.sw rs rt imm) s = accessCycle s (regRead s.x rs + imm.signExtend 32)
      (s.commit (s.pc + 4#32) s.x
        (s.mem.writeWord (wordIndex (regRead s.x rs + imm.signExtend 32)) (regRead s.x rt))) :=
  exec_sw rs rt imm s

/-- Settles O40: a load's outcome by the place of its word index. -/
theorem lwLoadsWord : Obligations.LwLoadsWord := by
  intro rs rt imm s addr
  rw [exec_lw_eq_accessCycle]
  exact ⟨rfl, rfl, accessCycle_spec s addr _⟩

/-- Settles O41: a store's outcome by the place of its word index. -/
theorem swStoresWord : Obligations.SwStoresWord := by
  intro rs rt imm s addr
  rw [exec_sw_eq_accessCycle]
  exact ⟨rfl, rfl, accessCycle_spec s addr _⟩

end Sys2Proof.Machine
end

section
/-! `beq` and `j` by their ALU results and targets (spec/43_control_transfer.md R180, R181, R185). -/

namespace Sys2Proof.Machine

/-! ### The cycle of `beq` (R180) -/

section
variable (rs rt : RegIdx) (imm : Imm) (s : State)

/-- The pc that a `beq` cycle outside the halt window loads (R130, R180). -/
def beqNextPc : Word :=
  if regRead s.x rs = regRead s.x rt then s.pc + imm.signExtend 32 * 4#32 + 4#32 else s.pc + 4#32

theorem rowAlu_beq : rowAlu .beq (iFormat rs rt imm) s = alu (regRead s.x rs) (regRead s.x rt) 1#3 := by
  simp [rowAlu, romCtl, operandB]

/-- The zero flag of the difference selects the target. -/
theorem pcUpdate_beq (target : Target) :
    pcUpdate s.pc target (sext32 imm) (romCtl s.params .beq) (regRead s.x rs == regRead s.x rt) =
      beqNextPc rs rt imm s := by
  rw [beqNextPc]
  split
  · next heq => exact pcUpdate_taken _ _ _ ⟨rfl, beq_iff_eq.2 heq⟩
  · next hne => exact pcUpdate_next _ _ _ (fun h => hne (beq_iff_eq.1 h.2)) rfl

/-- A branch changes no state element but the pc. -/
theorem rowNext_beq : rowNext .beq (iFormat rs rt imm) s = s.commit (beqNextPc rs rt imm s) s.x s.mem := by
  rw [← pcUpdate_beq rs rt imm s (iFormat rs rt imm).target]
  simp [rowNext, rowMem, rowAlu_beq, romCtl, writeback]

/-- A branch halts in the halt window of the difference, and else goes to its next pc. -/
theorem exec_beq :
    exec (.beq rs rt imm) s =
      if inHaltWindow s (regRead s.x rs - regRead s.x rt) then .next (s.markHalt .haltAddress)
      else .next (s.commit (beqNextPc rs rt imm s) s.x s.mem) := by
  have hrun : exec (.beq rs rt imm) s = runRow .beq (iFormat rs rt imm) s := rfl
  rw [hrun, runRow_eq, rowNext_beq]
  simp [rowHalts, rowFaults, haltTestApplies, romCtl, rowAlu_beq]

end

/-! ### The target of `j` (R132) -/

theorem jumpTarget_eq_ofNat (target : Target) : jumpTarget target = BitVec.ofNat 32 (4 * target.toNat) := by
  rw [← jumpTarget_toNat, BitVec.ofNat_toNat, BitVec.setWidth_eq]

/-! ### The obligations -/

/-- Settles O42: outside the halt window the next pc by the equality of the two registers. -/
theorem beqBranchesWhenEqual : Obligations.BeqBranchesWhenEqual := by
  intro rs rt imm s v
  rw [exec_beq]
  refine ⟨rfl, rfl, fun hw heq => ?_, fun hw hne => ?_, fun hw => if_pos hw⟩
  · rw [if_neg hw, beqNextPc, if_pos heq, State.commit]
  · rw [if_neg hw, beqNextPc, if_neg hne, State.commit]

/-- Settles O43: the jump target as a number, for every ALU operation that the two cells of the row choose. -/
theorem jumpGoesToAbsoluteTarget : Obligations.JumpGoesToAbsoluteTarget := by
  intro target s
  rw [exec_j, jumpTarget_eq_ofNat]
  exact ⟨rfl, rfl, fun hw => if_neg hw, fun hw => if_pos hw⟩

end Sys2Proof.Machine
end

section
/-! The halt causes and the model faults of a step, each exactly on its condition (spec/60_exceptions.md R200, R202,
R205). -/

namespace Sys2Proof.Machine

/-! ### Halt causes (R200, R202) -/

/-- A row's cycle that answers a next state halts exactly in its halt-index test, the one halt of the stages after
decode. -/
theorem runRow_next_halt_iff {row : RomRow} {f : Fields} {s t : State} (h : runRow row f s = .next t)
    (c : HaltCause) : t.halt = some c ↔ c = .haltAddress ∧ rowHalts row f s := by
  rcases runRow_next h with ⟨hh, rfl⟩ | ⟨hh, _, rfl⟩
  · simp only [State.markHalt_halt, Option.some.injEq, eq_comm, and_iff_left hh]
  · simp only [rowNext_halt, reduceCtorEq, hh, and_false]

/-- Settles O25: the step by the fetched word and its row; each case leaves one cause, or none, to take. -/
theorem haltCausesInStageOrder : Obligations.HaltCausesInStageOrder := by
  intro s t h w row
  obtain ⟨hpc, _⟩ := step_next h
  refine ⟨hpc, ?_⟩
  by_cases hw : w = 0#32
  · rw [step_zero hpc hw] at h
    cases h
    simp [hw]
  cases hrow : row with
  | none =>
    rw [step_noRow hpc hw hrow] at h
    cases h
    simp [hw]
  | some r =>
    rw [step_row hpc hw hrow] at h
    have hhalt (c : HaltCause) := runRow_next_halt_iff h c
    simp only [hhalt, hw, reduceCtorEq, false_and, and_false, true_and, ne_eq, not_false_eq_true, Option.some.injEq,
      exists_eq_left']
    -- What is left is the halt-index test, which the statement writes out (R126).
    exact Iff.rfl

/-! ### Model faults (R49, R205) -/

/-- The cycle of an access faults exactly above the halt index, where the halt test has let it pass. -/
theorem accessCycle_eq_fault_iff {s t : State} {addr : Word} {r : Fault} :
    accessCycle s addr t = .fault r ↔ s.params.haltIndex < wordIndex addr ∧ r = .memOutOfRange addr := by
  obtain ⟨hbelow, hat, habove⟩ := accessCycle_spec s addr t
  rcases Nat.lt_trichotomy (wordIndex addr) s.params.haltIndex with hlt | heq | hgt
  · simp [hbelow hlt, hlt.not_gt]
  · simp [hat heq, heq]
  · simp [habove hgt, hgt, eq_comm]

/-- A row without a memory access never faults (R205). -/
theorem runRow_ne_fault {row : RomRow} {f : Fields} {s : State} {r : Fault}
    (hr : (romCtl s.params row).memRead = false) (hw : (romCtl s.params row).memWrite = false) :
    runRow row f s ≠ .fault r := by
  have hfaults : ¬rowFaults row f s := by simp [rowFaults, hr, hw]
  rw [runRow_eq, if_neg hfaults]
  split <;> exact nofun

/-- A meaning faults exactly when it is a load or a store whose address is above the halt index (R49). -/
theorem exec_eq_fault_iff {i : Instr} {s : State} {r : Fault} :
    exec i s = .fault r ↔ ∃ rs rt imm, (i = .lw rs rt imm ∨ i = .sw rs rt imm) ∧
      s.params.haltIndex < wordIndex (dataAddress s rs imm) ∧ r = .memOutOfRange (dataAddress s rs imm) := by
  constructor
  · intro h
    cases i with
    | halt => cases h
    | unsupported word => cases h
    | lw rs rt imm =>
      rw [exec_lw_eq_accessCycle] at h
      exact ⟨rs, rt, imm, .inl rfl, accessCycle_eq_fault_iff.1 h⟩
    | sw rs rt imm =>
      rw [exec_sw_eq_accessCycle] at h
      exact ⟨rs, rt, imm, .inr rfl, accessCycle_eq_fault_iff.1 h⟩
    | _ => exact absurd h (runRow_ne_fault rfl rfl)
  · rintro ⟨rs, rt, imm, rfl | rfl, hfault⟩
    · rw [exec_lw_eq_accessCycle]
      exact accessCycle_eq_fault_iff.2 hfault
    · rw [exec_sw_eq_accessCycle]
      exact accessCycle_eq_fault_iff.2 hfault

theorem runRow_ne_refused (row : RomRow) (f : Fields) (s : State) (r : Refusal) : runRow row f s ≠ .refused r := by
  rw [runRow_eq]
  split_ifs <;> exact nofun

/-- Every instruction has a meaning. -/
theorem exec_ne_refused (i : Instr) (s : State) (r : Refusal) : exec i s ≠ .refused r := by
  rcases exec_cases i with ⟨row, f, hrun⟩ | ⟨c, _, hrun⟩ <;> rw [hrun]
  · exact runRow_ne_refused row f s r
  · exact nofun

/-- Settles O26: outside memory the fetch faults; inside, the step is the meaning of the decoded instruction. -/
theorem faultsAreExactlyTheTwo : Obligations.FaultsAreExactlyTheTwo := by
  intro s
  rcases Nat.lt_or_ge (wordIndex s.pc) s.params.memWords with hin | hout
  · rw [step_fetched hin]
    refine ⟨fun r => ?_, exec_ne_refused _ s⟩
    simp [exec_eq_fault_iff, hin, hin.not_ge]
  · rw [step_fetch_fault hout]
    refine ⟨fun r => ?_, fun _ => nofun⟩
    simp [hout, hout.not_gt, eq_comm]

end Sys2Proof.Machine
end

section
/-! The fetch of a run's first word: a launch (spec/70_reset_and_hazards.md R221), and a word placed there (R222). -/

namespace Sys2Proof.Machine

@[simp] theorem State.withFetchWord_params (s : State) (nbits w : Nat) :
    (s.withFetchWord nbits w).params = s.params := by
  rw [State.withFetchWord]; split <;> rfl

/-- Settles O11: the placed word is the word fetched, and placing it keeps the decoder's parameters. -/
theorem placedWordIsTheNextInstruction : Obligations.PlacedWordIsTheNextInstruction := by
  intro s nbits w hpc
  simp only [step, fetch_withFetchWord hpc, State.withFetchWord_params]

theorem State.launch_misaligned {pc0 : Word} (h : pc0.toNat % 4 ≠ 0) (p : Params) (rInit : Regs)
    (mInit : List Word) : State.launch p pc0 rInit mInit = .refused .launchMisalignedPc :=
  if_neg fun hal => h ((low_bits_zero_iff pc0).1 hal)

/-- Settles O19: an aligned launch keeps the caller's pc and parameters, so its first fetch is outside memory. -/
theorem misalignedLaunchIsRefused : Obligations.MisalignedLaunchIsRefused := by
  refine ⟨rfl, fun p pc0 rInit mInit => ⟨fun hmis => State.launch_misaligned hmis p rInit mInit, fun hal hout => ?_⟩⟩
  obtain ⟨t, hlaunch, _, rfl, rfl, _⟩ := launchLoadsTheCallersState p pc0 rInit mInit hal
  exact ⟨t, hlaunch, step_fetch_fault hout⟩

end Sys2Proof.Machine
end

section
/-! Decoding and encoding as inverses (spec/30_encoding.md R61, R66, R70 to R72, R82, R86). -/

namespace Sys2Proof.Machine

/-! ### Decoding an encoded instruction -/

section
variable {p : Params} (rs rt rd : RegIdx) (shamt : Shamt)

/-- An add's fields other than those of the sentinel encode another word than the sentinel (R66). -/
theorem encodeR_ne_zero {funct : Funct} (h : notSentinel rs rt rd shamt funct = true) :
    encodeR rs rt rd shamt funct ≠ 0#32 := by
  intro hz
  have hrs : rs = 0#5 := by rw [← rsOf_encodeR rs rt rd shamt funct, hz]; rfl
  have hrt : rt = 0#5 := by rw [← rtOf_encodeR rs rt rd shamt funct, hz]; rfl
  have hrd : rd = 0#5 := by rw [← rdOf_encodeR rs rt rd shamt funct, hz]; rfl
  have hshamt : shamt = 0#5 := by rw [← shamtOf_encodeR rs rt rd shamt funct, hz]; rfl
  have hfunct : funct = 0#6 := by rw [← functOf_encodeR rs rt rd shamt funct, hz]; rfl
  simp [notSentinel, hrs, hrt, hrd, hshamt, hfunct] at h

theorem decodeWord_encodeR_compare {funct : Funct} (hf : isCompareFunct funct = true) :
    decodeWord p (encodeR rs rt rd shamt funct) =
      if funct = 0x2A#6 then .slt rs rt rd shamt else .sltu rs rt rd shamt := by
  rw [decodeWord_compareFunct (.inr (opOf_encodeR ..)) (by rwa [functOf_encodeR])]
  simp

theorem decodeWord_encode_add {funct : Funct} (hs : notSentinel rs rt rd shamt funct = true)
    (hf : isCompareFunct funct = false) :
    decodeWord p (encode (.add rs rt rd shamt funct)) = .add rs rt rd shamt funct := by
  rw [encode, decodeWord_op0 p (encodeR_ne_zero rs rt rd shamt hs) (opOf_encodeR ..)]
  obtain ⟨hslt, hsltu⟩ : funct ≠ 0x2A#6 ∧ funct ≠ 0x2B#6 := by simpa [isCompareFunct] using hf
  simp [hslt, hsltu]

/-- The opcode chain of `decodeWord_primary` on an I-format word. -/
theorem decodeWord_encodeI {op : Opcode} {imm : Imm} (h0 : op ≠ 0x00#6)
    (h : keepsOpcode p op (imm.extractLsb' 0 6) = true) :
    decodeWord p (encodeI op rs rt imm) =
      if op = 0x02#6 then .j (targetOf (encodeI op rs rt imm))
      else if op = 0x04#6 then .beq rs rt imm
      else if op = 0x08#6 then .addi rs rt imm
      else if op = 0x0F#6 then .lui rs rt imm
      else if op = 0x23#6 then .lw rs rt imm
      else if op = 0x2B#6 then .sw rs rt imm
      else .unsupported (encodeI op rs rt imm) := by
  rw [decodeWord_primary (by simpa using h0) (by simpa using h)]
  simp

theorem decodeWord_encode_j {target : Target} (h : keepsOpcode p 0x02#6 (target.extractLsb' 0 6) = true) :
    decodeWord p (encode (.j target)) = .j target := by
  rw [encode, decodeWord_primary (by simp) (by simpa using h)]
  simp

end

/-- R82 in terms of the fields. -/
theorem lacksRomRow_iff {p : Params} {w : Word} :
    lacksRomRow p w = true ↔ opOf w ∉ supportedOpcodes ∧ keepsOpcode p (opOf w) (functOf w) = true := by
  simp [lacksRomRow, opOf, functOf]

theorem decodeWord_of_lacksRomRow {p : Params} {w : Word} (h : lacksRomRow p w = true) :
    decodeWord p w = .unsupported w := by
  obtain ⟨hop, hk⟩ := lacksRomRow_iff.1 h
  exact decodeWord_unsupported hop hk

/-- A well-formed instruction is decoded from its word: a compare by its function code, an add by opcode 0, the I- and
J-formats by their opcode, and an unsupported word by having no row. -/
theorem decodeWord_encode {p : Params} {i : Instr} (h : i.wellFormed p = true) : decodeWord p (encode i) = i := by
  cases i with
  | halt => rfl
  | slt rs rt rd shamt => exact decodeWord_encodeR_compare rs rt rd shamt rfl
  | sltu rs rt rd shamt => exact decodeWord_encodeR_compare rs rt rd shamt rfl
  | add rs rt rd shamt funct =>
    obtain ⟨hs, hf⟩ : notSentinel rs rt rd shamt funct = true ∧ isCompareFunct funct = false := by
      simpa [Instr.wellFormed] using h
    exact decodeWord_encode_add rs rt rd shamt hs hf
  | j target => exact decodeWord_encode_j h
  | beq rs rt imm => exact decodeWord_encodeI rs rt (by decide) h
  | addi rs rt imm => exact decodeWord_encodeI rs rt (by decide) h
  | lui rs rt imm => exact decodeWord_encodeI rs rt (by decide) h
  | lw rs rt imm => exact decodeWord_encodeI rs rt (by decide) h
  | sw rs rt imm => exact decodeWord_encodeI rs rt (by decide) h
  | unsupported w => exact decodeWord_of_lacksRomRow h

/-- Settles O2: the bytes of a word decode as the word, and a well-formed instruction is decoded from its word. -/
theorem decodeOfEncodeGivesInstrBack : Obligations.DecodeOfEncodeGivesInstrBack := by
  intro p i rest h
  rw [encodeBytes, decodeBytes_bytesOfWord, decodeWord_encode h]

/-! ### Encoding a decoded word -/

section
variable {w : Word}

theorem encodeR_eq_of_fields {funct : Funct} (h0 : opOf w = 0x00#6) (hf : functOf w = funct) :
    encodeR (rsOf w) (rtOf w) (rdOf w) (shamtOf w) funct = w := hf ▸ encodeR_fields w h0

theorem encodeI_eq_of_opOf {op : Opcode} (h : opOf w = op) : encodeI op (rsOf w) (rtOf w) (immOf w) = w :=
  h ▸ encodeI_fields w

theorem encodeJ_eq_of_opOf {op : Opcode} (h : opOf w = op) : encodeJ op (targetOf w) = w := h ▸ encodeJ_fields w

/-- Opcode 0 loses no bit under any parameters: the compares are told by the function code they are written with. -/
theorem encode_decodeWord_op0 (p : Params) (hw : w ≠ 0#32) (h0 : opOf w = 0x00#6) : encode (decodeWord p w) = w := by
  rw [decodeWord_op0 p hw h0]
  split_ifs with hslt hsltu
  · exact encodeR_eq_of_fields h0 hslt
  · exact encodeR_eq_of_fields h0 hsltu
  · exact encodeR_eq_of_fields h0 rfl

/-- A word decoded by its own opcode loses no bit. -/
theorem encode_decodeWord_primary {p : Params} (h0 : opOf w ≠ 0x00#6)
    (h : keepsOpcode p (opOf w) (functOf w) = true) : encode (decodeWord p w) = w := by
  rw [decodeWord_primary h0 h]
  split_ifs with hj hbeq haddi hlui hlw hsw
  · exact encodeJ_eq_of_opOf hj
  · exact encodeI_eq_of_opOf hbeq
  · exact encodeI_eq_of_opOf haddi
  · exact encodeI_eq_of_opOf hlui
  · exact encodeI_eq_of_opOf hlw
  · exact encodeI_eq_of_opOf hsw
  · rfl

end

/-- Settles O3: a word other than the sentinel is of opcode 0, or the default alias parameters keep its opcode. -/
theorem encodeOfDecodeGivesWordBack : Obligations.EncodeOfDecodeGivesWordBack := by
  intro p ha hs ht w
  by_cases hw : w = 0#32
  · subst hw; rfl
  · by_cases h0 : opOf w = 0x00#6
    · exact encode_decodeWord_op0 p hw h0
    · exact encode_decodeWord_primary h0 (keepsOpcode_of_default_alias ha hs ht ..)

/-! ### A decoded word is well formed -/

section
variable {p : Params} {w : Word}

/-- Only the sentinel has all fields zero and opcode 0 (R66). -/
theorem notSentinel_fields (hw : w ≠ 0#32) (h0 : opOf w = 0x00#6) :
    notSentinel (rsOf w) (rtOf w) (rdOf w) (shamtOf w) (functOf w) = true := by
  simp only [notSentinel, Bool.not_eq_true', ← Bool.not_eq_true, Bool.and_eq_true, beq_iff_eq]
  rintro ⟨⟨⟨⟨hrs, hrt⟩, hrd⟩, hshamt⟩, hfunct⟩
  rw [← encodeR_fields w h0, hrs, hrt, hrd, hshamt, hfunct] at hw
  exact hw rfl

theorem decodeWord_op0_wellFormed (p : Params) (hw : w ≠ 0#32) (h0 : opOf w = 0x00#6) :
    (decodeWord p w).wellFormed p = true := by
  rw [decodeWord_op0 p hw h0]
  split_ifs with hslt hsltu
  · rfl
  · rfl
  · simp [Instr.wellFormed, notSentinel_fields hw h0, isCompareFunct, hslt, hsltu]

theorem keepsOpcode_immOf {op : Opcode} (hop : opOf w = op) (h : keepsOpcode p (opOf w) (functOf w) = true) :
    keepsOpcode p op ((immOf w).extractLsb' 0 6) = true := by rwa [immOf_low, ← hop]

theorem keepsOpcode_targetOf {op : Opcode} (hop : opOf w = op) (h : keepsOpcode p (opOf w) (functOf w) = true) :
    keepsOpcode p op ((targetOf w).extractLsb' 0 6) = true := by rwa [targetOf_low, ← hop]

theorem decodeWord_primary_wellFormed (h0 : opOf w ≠ 0x00#6) (h : keepsOpcode p (opOf w) (functOf w) = true) :
    (decodeWord p w).wellFormed p = true := by
  rw [decodeWord_primary h0 h]
  split_ifs with hj hbeq haddi hlui hlw hsw
  · exact keepsOpcode_targetOf hj h
  · exact keepsOpcode_immOf hbeq h
  · exact keepsOpcode_immOf haddi h
  · exact keepsOpcode_immOf hlui h
  · exact keepsOpcode_immOf hlw h
  · exact keepsOpcode_immOf hsw h
  · have hop : opOf w ∉ supportedOpcodes := by simp [supportedOpcodes, h0, hj, hbeq, haddi, hlui, hlw, hsw]
    exact lacksRomRow_iff.2 ⟨hop, h⟩

end

/-- Settles O4: by the five cases of the decoder; a rewritten or colliding word is a compare, which is always well
formed. -/
theorem decodedInstrIsWellFormed : Obligations.DecodedInstrIsWellFormed := by
  intro p w
  rcases decode_cases p w with rfl | ⟨hw, h0⟩ | ⟨-, ha, hf⟩ | ⟨h0, hesc, hc⟩ | ⟨h0, hk⟩
  · rfl
  · exact decodeWord_op0_wellFormed p hw h0
  · rw [decodeWord_rewritten ha hf]
    split_ifs <;> rfl
  · rw [decodeWord_collides h0 hesc hc]
    split_ifs <;> rfl
  · exact decodeWord_primary_wellFormed h0 hk

/-! ### The spec's examples -/

/-- Settles O1: thirteen closed words, each decoded by running the model. -/
theorem specExampleWordsDecode : Obligations.SpecExampleWordsDecode := by
  unfold Obligations.SpecExampleWordsDecode
  decide

end Sys2Proof.Machine
end
